-- ==== Sys2Proof/Word.lean ====
section
/-! DEFINITION. The word types of the machine (spec/00_scope.md R6, R13): every register value is an
unsigned integer of a fixed width, and arithmetic on it is reduced modulo two to that width. -/

namespace Sys2Proof

/-- An 8-bit value: a memory location, a general register, a timer, a sprite row (R6, R20, R21, R27). -/
abbrev Byte := BitVec 8

/-- A 16-bit value: the instruction word, `I`, `pc`, a stack entry (R6). -/
abbrev Word := BitVec 16

/-- A display row: 64 pixels, bit 63 the leftmost (R28). -/
abbrev PixelRow := BitVec 64

/-- A register selector, one nibble of the instruction word (R93). -/
abbrev Reg := BitVec 4

/-- The 12-bit address immediate `nnn` (R94). -/
abbrev Addr12 := BitVec 12

/-- One bit per key, bit `k` for key `k`, 1 = held (R30). -/
abbrev Keys := BitVec 16

end Sys2Proof
end

