-- ==== Sys2Proof/Config.lean ====
section
/-! DEFINITION. The parameters of a run (spec/00_scope.md section 4, R7 to R11) and the free inputs.
A model takes the parameters "as a field of a configuration record that is fixed at machine
construction", that is, at reset (R290); the record is a field of State that no step changes. -/

namespace Sys2Proof

/-- `RESERVED_TOP` (R9): the two sizes the spec admits for the region the ROM loader must not fill. -/
inductive ReservedTop where
  /-- 0 bytes: the whole of memory above 0x200 is program space. -/
  | none
  /-- 352 bytes, 0xEA0 to 0xFFF (R60). -/
  | bytes352
  deriving DecidableEq, Repr, Inhabited

/-- The configuration record of R290. -/
structure Config where
  /-- `IPT - 1` (R7): written so because the spec admits exactly the integers `IPT >= 1` (D22). -/
  extraSlots : Nat
  /-- `LOGIC_CLEARS_VF` (R8): whether OR, AND and XOR clear `VF`. -/
  logicClearsVF : Bool
  /-- `RESERVED_TOP` (R9): consulted by the ROM load alone. -/
  reservedTop : ReservedTop
  /-- `FONT` (R11): the 80 bytes placed at 0x050 to 0x09F at reset. -/
  font : Vector Byte 80
  deriving DecidableEq, Repr, Inhabited

namespace Config

/-- `IPT` (R7): the number of instruction slots in one tick. -/
def ipt (c : Config) : Nat := c.extraSlots + 1

/-- `RESERVED_TOP` as a byte count (R9). -/
def reservedBytes (c : Config) : Nat :=
  match c.reservedTop with
  | .none => 0
  | .bytes352 => 352

/-- `CAP = 4096 - 0x200 - RESERVED_TOP` (R9), the capacity of the program region. -/
def capacity (c : Config) : Nat := 4096 - 0x200 - c.reservedBytes

/-- What a byte holds after reset and before the ROM is copied (R32, R290): the font at 0x050 to
0x09F, 0x00 elsewhere. It is also what an address that memory does not list reads as. The 0x00 fill
is the spec's own decision D15 (log entry 7). -/
def initialByte (c : Config) (a : Nat) : Byte :=
  if h : 0x050 ≤ a ∧ a < 0x0A0 then c.font[a - 0x050]'(by omega) else 0

/-- The default of `FONT`, R33's table. PRESUMED by the spec itself ("from general knowledge, not in
source", G1); `State.reset` does not use it (log entry 6). -/
def conventionalFont : Vector Byte 80 :=
  #v[0xF0, 0x90, 0x90, 0x90, 0xF0,  0x20, 0x60, 0x20, 0x20, 0x70,
     0xF0, 0x10, 0xF0, 0x80, 0xF0,  0xF0, 0x10, 0xF0, 0x10, 0xF0,
     0x90, 0x90, 0xF0, 0x10, 0x10,  0xF0, 0x80, 0xF0, 0x10, 0xF0,
     0xF0, 0x80, 0xF0, 0x90, 0xF0,  0xF0, 0x10, 0x20, 0x40, 0x40,
     0xF0, 0x90, 0xF0, 0x90, 0xF0,  0xF0, 0x90, 0xF0, 0x10, 0xF0,
     0xF0, 0x90, 0xF0, 0x90, 0x90,  0xE0, 0x90, 0xE0, 0x90, 0xE0,
     0xF0, 0x80, 0x80, 0x80, 0xF0,  0xE0, 0x90, 0x90, 0x90, 0xE0,
     0xF0, 0x80, 0xF0, 0x80, 0xF0,  0xF0, 0x80, 0xF0, 0x80, 0x80]

/-- The configuration the host gives with the reset that `State.reset` models: any value, since the
spec gives `IPT` and `LOGIC_CLEARS_VF` no default (R7, R8) and prints no font byte that the source
states (R11). Free (log entry 5). -/
opaque host : Config

/-- The key levels the host supplies with its `n`-th tick (R35): any value. Free (log entry 3). -/
opaque freeKeys : Nat → Keys

/-- The `n`-th random byte on the port `rnd_in` (R36): any value. Free (log entry 4). -/
opaque freeRnd : Nat → Byte

end Config

end Sys2Proof
end

