-- ==== Sys2Proof/Syntax.lean ====
section
/-! DEFINITION. The 34 instructions of spec/opcode_table.json (spec/30_encoding.md R96), one
constructor per row, in the table's order. Operands have exactly the widths of R93 and R94, all of
whose values are legal. -/

namespace Sys2Proof

/-- An instruction with its operands (R17): `x`, `y` register selectors, `kk` byte immediate, `nnn`
address immediate, `n` sprite height. -/
inductive Instr where
  /-- 00E0 CLS: clear the display. -/
  | cls
  /-- 00EE RET: return from a call. -/
  | ret
  /-- 1nnn JP addr: jump. -/
  | jp (nnn : Addr12)
  /-- 2nnn CALL addr: call. -/
  | call (nnn : Addr12)
  /-- 3xkk SE Vx,byte: skip if equal. -/
  | seByte (x : Reg) (kk : Byte)
  /-- 4xkk SNE Vx,byte: skip if not equal. -/
  | sneByte (x : Reg) (kk : Byte)
  /-- 5xy0 SE Vx,Vy: skip if equal. -/
  | seReg (x y : Reg)
  /-- 6xkk LD Vx,byte: load an immediate. -/
  | ldByte (x : Reg) (kk : Byte)
  /-- 7xkk ADD Vx,byte: add an immediate, no flag. -/
  | addByte (x : Reg) (kk : Byte)
  /-- 8xy0 LD Vx,Vy: copy a register. -/
  | ldReg (x y : Reg)
  /-- 8xy1 OR Vx,Vy. -/
  | orReg (x y : Reg)
  /-- 8xy2 AND Vx,Vy. -/
  | andReg (x y : Reg)
  /-- 8xy3 XOR Vx,Vy. -/
  | xorReg (x y : Reg)
  /-- 8xy4 ADD Vx,Vy: add with carry out. -/
  | addReg (x y : Reg)
  /-- 8xy5 SUB Vx,Vy: subtract, no-borrow flag. -/
  | subReg (x y : Reg)
  /-- 8xy6 SHR Vx,Vy: shift `Vy` right into `Vx`. -/
  | shrReg (x y : Reg)
  /-- 8xy7 SUBN Vx,Vy: reversed subtract. -/
  | subnReg (x y : Reg)
  /-- 8xyE SHL Vx,Vy: shift `Vy` left into `Vx`. -/
  | shlReg (x y : Reg)
  /-- 9xy0 SNE Vx,Vy: skip if not equal. -/
  | sneReg (x y : Reg)
  /-- Annn LD I,addr: load the index register. -/
  | ldI (nnn : Addr12)
  /-- Bnnn JP V0,addr: jump to `nnn + V0`. -/
  | jpV0 (nnn : Addr12)
  /-- Cxkk RND Vx,byte: random byte AND `kk`. -/
  | rnd (x : Reg) (kk : Byte)
  /-- Dxyn DRW Vx,Vy,n: sprite blit. -/
  | drw (x y n : BitVec 4)
  /-- Ex9E SKP Vx: skip if the key is held. -/
  | skp (x : Reg)
  /-- ExA1 SKNP Vx: skip if the key is not held. -/
  | sknp (x : Reg)
  /-- Fx07 LD Vx,DT: read the delay timer. -/
  | ldVxDT (x : Reg)
  /-- Fx0A LD Vx,K: wait for a key release. -/
  | ldVxK (x : Reg)
  /-- Fx15 LD DT,Vx: write the delay timer. -/
  | ldDT (x : Reg)
  /-- Fx18 LD ST,Vx: write the sound timer. -/
  | ldST (x : Reg)
  /-- Fx1E ADD I,Vx: add to the index register. -/
  | addI (x : Reg)
  /-- Fx29 LD F,Vx: address of a font glyph. -/
  | ldF (x : Reg)
  /-- Fx33 LD B,Vx: store the decimal digits of `Vx`. -/
  | ldB (x : Reg)
  /-- Fx55 LD [I],Vx: store `V0` to `Vx`. -/
  | stRegs (x : Reg)
  /-- Fx65 LD Vx,[I]: load `V0` to `Vx`. -/
  | ldRegs (x : Reg)
  deriving DecidableEq, Repr

end Sys2Proof
end

