-- ==== Sys2Proof/WellFormed.lean ====
section
/-! DEFINITION. The checks on what comes from outside: an instruction word is well formed iff it is
an instance of a row of the opcode map (spec/30_encoding.md R92, R95, R96), and a ROM iff it fits the
program region (spec/70_reset_and_hazards.md R292). A term of `Instr` needs no check: its operand
types hold exactly the values R93 and R94 allow, every one of which is legal. -/

namespace Sys2Proof

/-- A row of the opcode map: `op` is an instance of it when `op AND mask = bits` (R92; `bits` is the
table's column `match`). -/
structure OpRow where
  bits : Word
  mask : Word
  deriving DecidableEq, Repr

/-- `op` is an instance of the row (R92). -/
def OpRow.admits (r : OpRow) (op : Word) : Bool := op &&& r.mask == r.bits

/-- The row of each instruction, copied from R96's columns `match` and `mask`. -/
def Instr.row : Instr → OpRow
  | .cls => ⟨0x00E0, 0xFFFF⟩
  | .ret => ⟨0x00EE, 0xFFFF⟩
  | .jp _ => ⟨0x1000, 0xF000⟩
  | .call _ => ⟨0x2000, 0xF000⟩
  | .seByte _ _ => ⟨0x3000, 0xF000⟩
  | .sneByte _ _ => ⟨0x4000, 0xF000⟩
  | .seReg _ _ => ⟨0x5000, 0xF00F⟩
  | .ldByte _ _ => ⟨0x6000, 0xF000⟩
  | .addByte _ _ => ⟨0x7000, 0xF000⟩
  | .ldReg _ _ => ⟨0x8000, 0xF00F⟩
  | .orReg _ _ => ⟨0x8001, 0xF00F⟩
  | .andReg _ _ => ⟨0x8002, 0xF00F⟩
  | .xorReg _ _ => ⟨0x8003, 0xF00F⟩
  | .addReg _ _ => ⟨0x8004, 0xF00F⟩
  | .subReg _ _ => ⟨0x8005, 0xF00F⟩
  | .shrReg _ _ => ⟨0x8006, 0xF00F⟩
  | .subnReg _ _ => ⟨0x8007, 0xF00F⟩
  | .shlReg _ _ => ⟨0x800E, 0xF00F⟩
  | .sneReg _ _ => ⟨0x9000, 0xF00F⟩
  | .ldI _ => ⟨0xA000, 0xF000⟩
  | .jpV0 _ => ⟨0xB000, 0xF000⟩
  | .rnd _ _ => ⟨0xC000, 0xF000⟩
  | .drw _ _ _ => ⟨0xD000, 0xF000⟩
  | .skp _ => ⟨0xE09E, 0xF0FF⟩
  | .sknp _ => ⟨0xE0A1, 0xF0FF⟩
  | .ldVxDT _ => ⟨0xF007, 0xF0FF⟩
  | .ldVxK _ => ⟨0xF00A, 0xF0FF⟩
  | .ldDT _ => ⟨0xF015, 0xF0FF⟩
  | .ldST _ => ⟨0xF018, 0xF0FF⟩
  | .addI _ => ⟨0xF01E, 0xF0FF⟩
  | .ldF _ => ⟨0xF029, 0xF0FF⟩
  | .ldB _ => ⟨0xF033, 0xF0FF⟩
  | .stRegs _ => ⟨0xF055, 0xF0FF⟩
  | .ldRegs _ => ⟨0xF065, 0xF0FF⟩

/-- The opcode map R96: the rows of the 34 instructions, in the table's order. -/
def opcodeMap : List OpRow :=
  [ Instr.row .cls, Instr.row .ret, Instr.row (.jp 0), Instr.row (.call 0),
    Instr.row (.seByte 0 0), Instr.row (.sneByte 0 0), Instr.row (.seReg 0 0),
    Instr.row (.ldByte 0 0), Instr.row (.addByte 0 0) ] ++
  [ Instr.row (.ldReg 0 0), Instr.row (.orReg 0 0), Instr.row (.andReg 0 0),
    Instr.row (.xorReg 0 0), Instr.row (.addReg 0 0), Instr.row (.subReg 0 0),
    Instr.row (.shrReg 0 0), Instr.row (.subnReg 0 0), Instr.row (.shlReg 0 0),
    Instr.row (.sneReg 0 0) ] ++
  [ Instr.row (.ldI 0), Instr.row (.jpV0 0), Instr.row (.rnd 0 0), Instr.row (.drw 0 0 0),
    Instr.row (.skp 0), Instr.row (.sknp 0) ] ++
  [ Instr.row (.ldVxDT 0), Instr.row (.ldVxK 0), Instr.row (.ldDT 0), Instr.row (.ldST 0),
    Instr.row (.addI 0), Instr.row (.ldF 0), Instr.row (.ldB 0), Instr.row (.stRegs 0),
    Instr.row (.ldRegs 0) ]

/-- The word is an instance of a row of the opcode map; every other word is illegal (R95, R100). -/
def legalWord (op : Word) : Bool := opcodeMap.any (·.admits op)

/-- Two rows have no common instance: on the bits both fix, they differ. -/
def OpRow.disjoint (r q : OpRow) : Bool := r.bits &&& q.mask != q.bits &&& r.mask

/-- The ROM fits the program region (R292): its length is at most `CAP`. -/
def romFits (c : Config) (rom : List Byte) : Bool := rom.length ≤ c.capacity

end Sys2Proof
end

