-- ==== Sys2Proof/Decode.lean ====
section
/-! DEFINITION. The decoder (spec/30_encoding.md R91, R95 to R97) from the 16-bit word to an
instruction, total on every word, and the encoder, from the same opcode map (R92, R96). -/

namespace Sys2Proof

/-- Why the decoder gives no instruction. -/
inductive DecodeError where
  /-- The word is an instance of no row; the step turns this into the fault `UnknownOpcode`, which
  carries the raw word (R100, R124). -/
  | unknownOpcode (op : Word)
  /-- Fewer than two bytes were given; "always reads exactly 2 bytes" (R90). -/
  | truncated
  deriving DecidableEq, Repr

/-! ## Fields of the instruction word (R17, R91) -/

/-- `n0 = op[15:12]`. -/
def fieldN0 (op : Word) : BitVec 4 := op.extractLsb' 12 4
/-- `x = n1 = op[11:8]`. -/
def fieldX (op : Word) : Reg := op.extractLsb' 8 4
/-- `y = n2 = op[7:4]`. -/
def fieldY (op : Word) : Reg := op.extractLsb' 4 4
/-- `n = n3 = op[3:0]`. -/
def fieldN (op : Word) : BitVec 4 := op.extractLsb' 0 4
/-- `kk = op[7:0]`. -/
def fieldKK (op : Word) : Byte := op.extractLsb' 0 8
/-- `nnn = op[11:0]`. -/
def fieldNNN (op : Word) : Addr12 := op.extractLsb' 0 12

/-- The instruction word of two consecutive bytes, the lower address first: `op = b0 : b1`, the byte
at the lower address more significant (R62). -/
def wordOfBytes (b0 b1 : Byte) : Word := b0 ++ b1

/-- The byte of a word that is stored at the lower address (R62). -/
def highByte (op : Word) : Byte := op.extractLsb' 8 8
/-- The byte of a word that is stored at the higher address (R62). -/
def lowByte (op : Word) : Byte := op.extractLsb' 0 8

/-! ## The decoder, walked by major opcode as R97 does -/

/-- Major opcode 0: the whole word decides. -/
def decodeGroup0 (op : Word) : Option Instr :=
  if op = 0x00E0 then some .cls
  else if op = 0x00EE then some .ret
  else none

/-- Major opcode 8: `n3` selects. -/
def decodeGroup8 (op : Word) : Option Instr :=
  let x := fieldX op
  let y := fieldY op
  let n := fieldN op
  if n = 0x0 then some (.ldReg x y)
  else if n = 0x1 then some (.orReg x y)
  else if n = 0x2 then some (.andReg x y)
  else if n = 0x3 then some (.xorReg x y)
  else if n = 0x4 then some (.addReg x y)
  else if n = 0x5 then some (.subReg x y)
  else if n = 0x6 then some (.shrReg x y)
  else if n = 0x7 then some (.subnReg x y)
  else if n = 0xE then some (.shlReg x y)
  else none

/-- Major opcode E: `kk` selects. -/
def decodeGroupE (op : Word) : Option Instr :=
  let x := fieldX op
  let kk := fieldKK op
  if kk = 0x9E then some (.skp x)
  else if kk = 0xA1 then some (.sknp x)
  else none

/-- Major opcode F: `kk` selects. -/
def decodeGroupF (op : Word) : Option Instr :=
  let x := fieldX op
  let kk := fieldKK op
  if kk = 0x07 then some (.ldVxDT x)
  else if kk = 0x0A then some (.ldVxK x)
  else if kk = 0x15 then some (.ldDT x)
  else if kk = 0x18 then some (.ldST x)
  else if kk = 0x1E then some (.addI x)
  else if kk = 0x29 then some (.ldF x)
  else if kk = 0x33 then some (.ldB x)
  else if kk = 0x55 then some (.stRegs x)
  else if kk = 0x65 then some (.ldRegs x)
  else none

/-- The instruction a word is an instance of, if any (R95, R97). -/
def decodeRow (op : Word) : Option Instr :=
  let n0 := fieldN0 op
  if n0 = 0x0 then decodeGroup0 op
  else if n0 = 0x1 then some (.jp (fieldNNN op))
  else if n0 = 0x2 then some (.call (fieldNNN op))
  else if n0 = 0x3 then some (.seByte (fieldX op) (fieldKK op))
  else if n0 = 0x4 then some (.sneByte (fieldX op) (fieldKK op))
  else if n0 = 0x5 then (if fieldN op = 0 then some (.seReg (fieldX op) (fieldY op)) else none)
  else if n0 = 0x6 then some (.ldByte (fieldX op) (fieldKK op))
  else if n0 = 0x7 then some (.addByte (fieldX op) (fieldKK op))
  else if n0 = 0x8 then decodeGroup8 op
  else if n0 = 0x9 then (if fieldN op = 0 then some (.sneReg (fieldX op) (fieldY op)) else none)
  else if n0 = 0xA then some (.ldI (fieldNNN op))
  else if n0 = 0xB then some (.jpV0 (fieldNNN op))
  else if n0 = 0xC then some (.rnd (fieldX op) (fieldKK op))
  else if n0 = 0xD then some (.drw (fieldX op) (fieldY op) (fieldN op))
  else if n0 = 0xE then decodeGroupE op
  else decodeGroupF op

/-- Decoding is a total function of the 16-bit word (R95): an instruction, or the rejection that
carries the raw word (R100). -/
def decodeWord (op : Word) : Except DecodeError Instr :=
  match decodeRow op with
  | some i => .ok i
  | none => .error (.unknownOpcode op)

/-- Decoding the bytes at an address: exactly two are read, the rest is given back (R90). -/
def decodeBytes : List Byte → Except DecodeError (Instr × List Byte)
  | b0 :: b1 :: rest =>
    match decodeWord (wordOfBytes b0 b1) with
    | .ok i => .ok (i, rest)
    | .error e => .error e
  | _ => .error .truncated

/-- What this decoder reads from an instruction whose bits are `w`, numbered as
spec/opcode_table.json numbers them, of which the table gives `nbits`. The instruction is one 16-bit
word, laid out with its high byte first (R62). -/
def decodeTableWord (nbits w : Nat) : Option Instr :=
  let op : Word := BitVec.ofNat 16 (w % 2 ^ nbits)
  match decodeBytes [highByte op, lowByte op] with
  | .ok (i, _) => some i
  | .error _ => none

/-! ## The encoder -/

/-- Format `XKK` of R92: opcode, `x`, `kk`. -/
def formatXKK (n0 : BitVec 4) (x : Reg) (kk : Byte) : Word := n0 ++ x ++ kk
/-- Format `NNN` of R92: opcode, `nnn`. -/
def formatNNN (n0 : BitVec 4) (nnn : Addr12) : Word := n0 ++ nnn
/-- Formats `XY` and `XYN` of R92: opcode, `x`, `y`, function or height. -/
def formatXYN (n0 : BitVec 4) (x y : Reg) (n : BitVec 4) : Word := n0 ++ x ++ y ++ n

/-- The word of an instruction (R92, R96). -/
def encode : Instr → Word
  | .cls => 0x00E0
  | .ret => 0x00EE
  | .jp nnn => formatNNN 0x1 nnn
  | .call nnn => formatNNN 0x2 nnn
  | .seByte x kk => formatXKK 0x3 x kk
  | .sneByte x kk => formatXKK 0x4 x kk
  | .seReg x y => formatXYN 0x5 x y 0x0
  | .ldByte x kk => formatXKK 0x6 x kk
  | .addByte x kk => formatXKK 0x7 x kk
  | .ldReg x y => formatXYN 0x8 x y 0x0
  | .orReg x y => formatXYN 0x8 x y 0x1
  | .andReg x y => formatXYN 0x8 x y 0x2
  | .xorReg x y => formatXYN 0x8 x y 0x3
  | .addReg x y => formatXYN 0x8 x y 0x4
  | .subReg x y => formatXYN 0x8 x y 0x5
  | .shrReg x y => formatXYN 0x8 x y 0x6
  | .subnReg x y => formatXYN 0x8 x y 0x7
  | .shlReg x y => formatXYN 0x8 x y 0xE
  | .sneReg x y => formatXYN 0x9 x y 0x0
  | .ldI nnn => formatNNN 0xA nnn
  | .jpV0 nnn => formatNNN 0xB nnn
  | .rnd x kk => formatXKK 0xC x kk
  | .drw x y n => formatXYN 0xD x y n
  | .skp x => formatXKK 0xE x 0x9E
  | .sknp x => formatXKK 0xE x 0xA1
  | .ldVxDT x => formatXKK 0xF x 0x07
  | .ldVxK x => formatXKK 0xF x 0x0A
  | .ldDT x => formatXKK 0xF x 0x15
  | .ldST x => formatXKK 0xF x 0x18
  | .addI x => formatXKK 0xF x 0x1E
  | .ldF x => formatXKK 0xF x 0x29
  | .ldB x => formatXKK 0xF x 0x33
  | .stRegs x => formatXKK 0xF x 0x55
  | .ldRegs x => formatXKK 0xF x 0x65

end Sys2Proof
end

