-- ==== Sys2Proof/Machine/State.lean ====
section
/-! DEFINITION. The whole state of the machine (spec/10_state.md, section 1 and R20 to R42) as plain
data, and the state right after reset (spec/70_reset_and_hazards.md R290, R291). -/

namespace Sys2Proof.Machine

/-- The five fault kinds (R250). A fault is a state of this machine: the raising step answers a NEXT
state whose `fault` latch holds the kind (R256), and the machine is halted from then on (R257). The
type also fills the interface's place for reasons to stop, `Host.Outcome.fault`, which no step and no
meaning of this model answers (log entry 1). All five are safe: the machine stops making progress
exactly where the spec says so. -/
inductive Fault where
  /-- Raised by the fetch of any step when `pc0 + 1 > 0xFFF` (R251). Safe. -/
  | fetchOutOfBounds
  /-- Raised by the dispatch when the word matches no row of the opcode map (R252). Safe. -/
  | unknownOpcode
  /-- Raised by 00EE RET on an empty stack (R253). Safe. -/
  | stackUnderflow
  /-- Raised by Fx33, Fx55, Fx65 and Dxyn when the accessed range passes 0xFFF (R254). Safe. -/
  | memoryAccessViolation
  /-- Raised by the reset event when the ROM is longer than `CAP` (R255, R293). Safe. -/
  | romTooLarge
  deriving DecidableEq, Repr

/-- Reasons to give an instruction no meaning. -/
inductive Refusal where
  /-- An instruction that has no meaning yet, answered by an arm of `exec` alone: no arm does, since
  all 34 instructions have their meaning. Safe. -/
  | notModelled (mnemonic : String)
  deriving DecidableEq, Repr

/-- What the fault latch records (R31): the kind, the address of the faulting instruction, and the
instruction word, 0x0000 where none was fetched (R250). -/
structure FaultRecord where
  kind : Fault
  pc : Word
  op : Word
  deriving DecidableEq, Repr

/-- Memory as data: (address, byte) pairs in one canonical form, addresses strictly rising, no byte
equal to what an unlisted address reads as (`Config.initialByte`). -/
abbrev Memory := List Host.Cell

/-- The state of the machine. -/
structure State where
  /-- `mem`, 4096 bytes (R20), listing what differs from the contents before the ROM load. -/
  mem : Memory
  /-- `V0` to `VF`; `VF` is the flag (R21, R22). -/
  V : Vector Byte 16
  /-- The index register (R23). -/
  I : Word
  /-- The program counter: between steps, the address of the next instruction (R24). -/
  pc : Word
  /-- The call stack, the most recently pushed return address first (R26; log entry 17). -/
  stack : List Word
  /-- The delay timer (R27). -/
  DT : Byte
  /-- The sound timer (R27). -/
  ST : Byte
  /-- The display, row 0 the top row (R28). -/
  disp : Vector PixelRow 32
  /-- The tone gate (R29). -/
  tone : Bool
  /-- This tick's key levels (R30). -/
  keysNow : Keys
  /-- The previous tick's key levels (R30). -/
  keysPrev : Keys
  /-- The fault latch (R31). -/
  fault : Option FaultRecord
  /-- The parameters of the run, given with reset and changed by nothing else (R290). -/
  cfg : Config
  /-- How many of the current tick's `IPT` slots have run; 0 between ticks (R262, R265). -/
  slot : Nat
  /-- The model's own: levels for the port `keys_in` (R35) that the host has already settled, the
  next tick's first; beyond them the levels are free (log entry 3). -/
  keysIn : List Keys
  /-- The model's own: bytes for the port `rnd_in` (R36) that the host has already settled, the next
  one first; beyond them the bytes are free (log entry 4). -/
  rndIn : List Byte
  /-- The model's own: the index of the next free key sample. -/
  tickNo : Nat
  /-- The model's own: the index of the next free random byte. -/
  rndNo : Nat
  deriving DecidableEq, Repr

/-- The state after the reset event with the configuration `c` and an empty ROM (R290, R291). Memory
lists nothing: an unlisted address reads as its reset contents, the font or 0x00 (R32). -/
def State.resetWith (c : Config) : State where
  mem := []
  V := Vector.replicate 16 0
  I := 0x0000
  pc := 0x0200
  stack := []
  DT := 0
  ST := 0
  disp := Vector.replicate 32 0
  tone := false
  keysNow := 0
  keysPrev := 0
  fault := none
  cfg := c
  slot := 0
  keysIn := []
  rndIn := []
  tickNo := 0
  rndNo := 0

/-- The machine right after reset: no ROM, and a configuration of which nothing is known (log
entries 5 and 9). -/
def State.reset : State := State.resetWith Config.host

end Sys2Proof.Machine
end

