-- ==== Sys2Proof/Machine/Ops.lean ====
section
/-! DEFINITION. The named operations over memory, registers, stack, inputs and the fault latch
(spec/00_scope.md R14 to R16, spec/20_memory.md, spec/60_exceptions.md R256). -/

namespace Sys2Proof.Machine

/-! ## Memory: the one address space of 4096 bytes (R20, R60) -/

/-- The address is one of the 4096 locations 0x000 to 0xFFF (R20). -/
def addressExists (a : Nat) : Bool := a < 4096

/-- The byte at an address: the listed one, else the reset contents (R32, R68). -/
def Memory.read (c : Config) (m : Memory) (a : Nat) : Byte :=
  match m with
  | [] => c.initialByte a
  | (b, v) :: rest => if a = b then v else Memory.read c rest a

/-- The list with the cell for `a` set to `v`, in the canonical form: kept sorted, and no cell where
`v` is what an unlisted address reads as. -/
def Memory.insert (c : Config) (m : Memory) (a : Nat) (v : Byte) : Memory :=
  match m with
  | [] => if v = c.initialByte a then [] else [(a, v)]
  | (b, w) :: rest =>
    if a < b then (if v = c.initialByte a then (b, w) :: rest else (a, v) :: (b, w) :: rest)
    else if a = b then (if v = c.initialByte a then rest else (a, v) :: rest)
    else (b, w) :: Memory.insert c rest a v

/-- A one-byte write; there is nothing to write at an address that does not exist. -/
def Memory.write (c : Config) (m : Memory) (a : Nat) (v : Byte) : Memory :=
  if addressExists a then Memory.insert c m a v else m

/-- A write of consecutive bytes, `bs[k]` at `a + k` (R15). The addresses are distinct, so the order
of the single writes does not show. -/
def Memory.writeList (c : Config) (m : Memory) (a : Nat) : List Byte → Memory
  | [] => m
  | b :: bs => Memory.write c (Memory.writeList c m (a + 1) bs) a b

/-- The canonical form: addresses strictly rising from `lo`, all existing, no byte equal to the reset
contents. -/
def Memory.wfFrom (c : Config) (lo : Nat) : Memory → Bool
  | [] => true
  | (a, v) :: rest =>
    decide (lo ≤ a) && addressExists a && decide (v ≠ c.initialByte a) && Memory.wfFrom c (a + 1) rest

/-- The canonical form of memory, which makes equal memories equal data. -/
def Memory.wf (c : Config) (m : Memory) : Bool := Memory.wfFrom c 0 m

/-- The byte the machine holds at address `a` (R20). -/
def State.readByte (s : State) (a : Nat) : Byte := Memory.read s.cfg s.mem a

/-- Every one of the `n` bytes at `a .. a + n - 1` exists, the sum taken over unbounded integers; of
no bytes this says nothing (R65, R66). -/
def rangeExists (a n : Nat) : Bool := n = 0 || addressExists (a + n - 1)

/-- `MemRead(a, n)`, lowest address first, given only if the whole range exists (R15, R66). -/
def State.memRead (s : State) (a n : Nat) : Option (List Byte) :=
  if rangeExists a n then some ((List.range n).map fun k => s.readByte (a + k)) else none

/-- `MemWrite(a, n, bytes)`, lowest address first, made only if the whole range exists (R15, R66). -/
def State.memWrite (s : State) (a : Nat) (bytes : List Byte) : Option State :=
  if rangeExists a bytes.length then
    some { s with mem := Memory.writeList s.cfg s.mem a bytes }
  else none

/-! ## General registers, program counter, index register (R21 to R24) -/

/-- `V[x]`. -/
def State.reg (s : State) (x : Reg) : Byte := s.V[x.toNat]'x.isLt

/-- `V[x] <- v`. -/
def State.setReg (s : State) (x : Reg) (v : Byte) : State := { s with V := s.V.set x.toNat v x.isLt }

/-- `VF`, the machine's only flag, is `V[0xF]` (R14, R22). -/
def regF : Reg := 0xF

/-- `VF <- v`. -/
def State.setVF (s : State) (v : Byte) : State := s.setReg regF v

/-- `V[x] <- result` and then `VF <- flag`: the flag is written last, so with `x = F` it is what `VF`
holds afterwards (R22, R160; the spec's own decision D9, log entry 12). -/
def State.setResultThenFlag (s : State) (x : Reg) (result flag : Byte) : State :=
  (s.setReg x result).setVF flag

/-- `I <- v`. -/
def State.setI (s : State) (v : Word) : State := { s with I := v }

/-- `pc <- target` (R14): never checked, neither for range nor for parity (R140). -/
def State.setPc (s : State) (target : Word) : State := { s with pc := target }

/-- The advance `pc <- pc0 + 2` (R122). -/
def State.advance (s : State) : State := { s with pc := s.pc + 2 }

/-- The advance, and if the condition holds one further `pc <- pc + 2` (R149). -/
def State.advanceSkippingIf (s : State) (c : Bool) : State :=
  if c then s.advance.advance else s.advance

/-- `V[0] .. V[n-1]` loaded from `mem[I] .. mem[I+n-1]`; used for `n <= 16` (R195). -/
def State.loadRegs (s : State) : Nat → State
  | 0 => s
  | k + 1 => (s.loadRegs k).setReg (BitVec.ofNat 4 k) (s.readByte (s.I.toNat + k))

/-- The values `V[0] .. V[n-1]`, for `n <= 16`, lowest number first (R194). -/
def State.regsBelow (s : State) (n : Nat) : List Byte :=
  (List.range n).map fun k => s.reg (BitVec.ofNat 4 k)

/-! ## The call stack (R26) -/

/-- `push(v)`: always succeeds. -/
def State.push (s : State) (v : Word) : State := { s with stack := v :: s.stack }

/-! ## Faults (R16, R125, R256) -/

/-- Taking a fault, the machine's one exception entry: the latch takes the kind, the address of the
faulting instruction and its word, and nothing else changes; `pc` is still the instruction's own
address, since no meaning has advanced it. There is no return from a fault but reset (R257, R259). -/
def State.raise (s : State) (kind : Fault) (op : Word) : State :=
  { s with fault := some ⟨kind, s.pc, op⟩ }

/-- The machine is halted (R257). -/
def State.halted (s : State) : Bool := s.fault.isSome

/-! ## The free inputs (R35, R36) -/

/-- The key levels on the port `keys_in` for the next tick: settled by the host, or free. -/
def State.nextKeys (s : State) : Keys :=
  match s.keysIn with
  | k :: _ => k
  | [] => Config.freeKeys s.tickNo

/-- The byte on the port `rnd_in` for the next sample: settled by the host, or free. -/
def State.nextRnd (s : State) : Byte :=
  match s.rndIn with
  | r :: _ => r
  | [] => Config.freeRnd s.rndNo

/-- The sample of `rnd_in` is taken: the next one is unrelated to it (R36). -/
def State.consumeRnd (s : State) : State :=
  { s with rndIn := s.rndIn.tail, rndNo := s.rndNo + 1 }

/-! ## Fetch (R121) -/

/-- The instruction word at `pc`, if both its bytes exist; a pure function of memory (R65, R121). -/
def State.fetchWord (s : State) : Option Word :=
  match s.memRead s.pc.toNat 2 with
  | some [b0, b1] => some (wordOfBytes b0 b1)
  | _ => none

end Sys2Proof.Machine
end

