-- ==== Sys2Proof/Machine/Reset.lean ====
section
/-! DEFINITION. The reset event with its ROM (spec/70_reset_and_hazards.md R290 to R293). -/

namespace Sys2Proof.Machine

/-- `reset(rom, config)` (R290): the same whatever the state before. ROM byte `j` goes to
`mem[0x200 + j]` (R292); a ROM longer than `CAP` is rejected, no byte of it is copied and the machine
is halted (R293; rejecting is the spec's own decision D18, log entry 23). -/
def State.load (c : Config) (rom : List Byte) : State :=
  if romFits c rom then
    { State.resetWith c with mem := Memory.writeList c [] 0x200 rom }
  else
    { State.resetWith c with fault := some ⟨.romTooLarge, 0x0200, 0x0000⟩ }

end Sys2Proof.Machine
end

