-- ==== Sys2Proof/Machine/Flags.lean ====
section
/-! DEFINITION. What instructions write to `VF` as a flag (spec/10_state.md R22, with the rules of
spec/42_alu.md and spec/43_index_memory.md). Each is computed from the operands before the
operation. The collision flag is computed with the blit (Display.lean). -/

namespace Sys2Proof.Machine

/-- A flag as the byte `VF` holds. -/
def flagByte (b : Bool) : Byte := if b then 1 else 0

/-- Carry out of bit 7: 1 iff the sum over unbounded integers exceeds 255 (R168). -/
def carryFlag (a b : Byte) : Byte := flagByte (decide (a.toNat + b.toNat > 255))

/-- No borrow in `a - b`: 1 iff `a >= b`, unsigned (R169, R171). -/
def noBorrowFlag (a b : Byte) : Byte := flagByte (decide (a.toNat ≥ b.toNat))

/-- The bit a right shift by one drops, bit 0 (R170). -/
def lowBitFlag (b : Byte) : Byte := flagByte (b.getLsbD 0)

/-- The bit a left shift by one drops, bit 7 (R172). -/
def highBitFlag (b : Byte) : Byte := flagByte (b.getLsbD 7)

/-- `I` has left the address space: 1 iff the new 16-bit value exceeds 0xFFF (R191). -/
def indexOutFlag (i : Word) : Byte := flagByte (decide (i.toNat > 0x0FFF))

/-- The logic quirk, after the result is written: `VF <- 0` if `LOGIC_CLEARS_VF`; else `VF` keeps what
it holds (R164). -/
def State.applyLogicQuirk (s : State) : State :=
  s.setVF (if s.cfg.logicClearsVF then 0 else s.reg regF)

end Sys2Proof.Machine
end

