-- ==== Sys2Proof/Machine/Operands.lean ====
section
/-! DEFINITION. Operand forms beyond the plain register (`State.reg`) and the byte immediate, which
is used as it stands (spec/30_encoding.md R93, R94; spec/43_index_memory.md R196). -/

namespace Sys2Proof.Machine

/-- `zext_16(nnn)`: the address immediate in a 16-bit register (R94). -/
def zextAddr (nnn : Addr12) : Word := nnn.zeroExtend 16

/-- `zext_16(v)`: a register added to a 16-bit register (R144, R191). -/
def zextByte (v : Byte) : Word := v.zeroExtend 16

/-- `v AND 0x0F`: the key index or hexadecimal digit in a register; its high nibble is ignored
(R192, R236). -/
def lowNibble (v : Byte) : BitVec 4 := v.extractLsb' 0 4

/-- The address of the glyph of digit `d`, `0x050 + 5*d`: computed, not read from memory (R192). -/
def glyphAddress (d : BitVec 4) : Word := 0x0050 + 5 * d.zeroExtend 16

/-- Key `k` is held in the latch (R30). -/
def keyHeld (keys : Keys) (k : BitVec 4) : Bool := keys.getLsbD k.toNat

/-- The keys released in this tick: pressed in the previous tick and not in this one (R233). -/
def released (prev now : Keys) : Keys := prev &&& ~~~now

/-- The smallest key number in the set, if any (R233; the smallest is the spec's own decision D13,
log entry 13). -/
def smallestKey (keys : Keys) : Option (BitVec 4) :=
  ((List.range 16).find? fun k => keys.getLsbD k).map (BitVec.ofNat 4)

/-- The number of a key as a byte, 0x00 to 0x0F (R237). -/
def keyByte (k : BitVec 4) : Byte := k.zeroExtend 8

/-- The decimal digits of an unsigned byte, hundreds, tens, ones, each a number 0 to 9 (R193). -/
def bcdDigits (v : Byte) : List Byte := [v / 100, v / 10 % 10, v % 10]

end Sys2Proof.Machine
end

