-- ==== Sys2Proof/Machine/Alu.lean ====
section
/-! DEFINITION. Register load, arithmetic, logic, shift and random (spec/42_alu.md). All operands are
read from the state before the instruction; the result is written first, the flag last (R160). None
of these can fault. -/

namespace Sys2Proof.Machine

/-- 6xkk LD Vx,byte (R161). -/
def execLdByte (x : Reg) (kk : Byte) (s : State) : Host.Outcome State Fault Refusal :=
  .next (s.setReg x kk).advance

/-- 7xkk ADD Vx,byte (R162): wrapping, no flag. -/
def execAddByte (x : Reg) (kk : Byte) (s : State) : Host.Outcome State Fault Refusal :=
  .next (s.setReg x (s.reg x + kk)).advance

/-- 8xy0 LD Vx,Vy (R163). -/
def execLdReg (x y : Reg) (s : State) : Host.Outcome State Fault Refusal :=
  .next (s.setReg x (s.reg y)).advance

/-- 8xy1 OR Vx,Vy (R165). -/
def execOrReg (x y : Reg) (s : State) : Host.Outcome State Fault Refusal :=
  .next (s.setReg x (s.reg x ||| s.reg y)).applyLogicQuirk.advance

/-- 8xy2 AND Vx,Vy (R166). -/
def execAndReg (x y : Reg) (s : State) : Host.Outcome State Fault Refusal :=
  .next (s.setReg x (s.reg x &&& s.reg y)).applyLogicQuirk.advance

/-- 8xy3 XOR Vx,Vy (R167). -/
def execXorReg (x y : Reg) (s : State) : Host.Outcome State Fault Refusal :=
  .next (s.setReg x (s.reg x ^^^ s.reg y)).applyLogicQuirk.advance

/-- 8xy4 ADD Vx,Vy (R168). -/
def execAddReg (x y : Reg) (s : State) : Host.Outcome State Fault Refusal :=
  let a := s.reg x
  let b := s.reg y
  .next (s.setResultThenFlag x (a + b) (carryFlag a b)).advance

/-- 8xy5 SUB Vx,Vy (R169). -/
def execSubReg (x y : Reg) (s : State) : Host.Outcome State Fault Refusal :=
  let a := s.reg x
  let b := s.reg y
  .next (s.setResultThenFlag x (a - b) (noBorrowFlag a b)).advance

/-- 8xy6 SHR Vx,Vy (R170): the source is `Vy`. -/
def execShrReg (x y : Reg) (s : State) : Host.Outcome State Fault Refusal :=
  let b := s.reg y
  .next (s.setResultThenFlag x (b >>> 1) (lowBitFlag b)).advance

/-- 8xy7 SUBN Vx,Vy (R171). -/
def execSubnReg (x y : Reg) (s : State) : Host.Outcome State Fault Refusal :=
  let a := s.reg x
  let b := s.reg y
  .next (s.setResultThenFlag x (b - a) (noBorrowFlag b a)).advance

/-- 8xyE SHL Vx,Vy (R172): the source is `Vy`. -/
def execShlReg (x y : Reg) (s : State) : Host.Outcome State Fault Refusal :=
  let b := s.reg y
  .next (s.setResultThenFlag x (b <<< 1) (highBitFlag b)).advance

/-- Cxkk RND Vx,byte (R173): one sample of `rnd_in`, ANDed with `kk`. -/
def execRnd (x : Reg) (kk : Byte) (s : State) : Host.Outcome State Fault Refusal :=
  .next (s.consumeRnd.setReg x (s.nextRnd &&& kk)).advance

end Sys2Proof.Machine
end

