-- ==== Sys2Proof/Machine/Display.lean ====
section
/-! DEFINITION. The display unit (spec/44_display.md): clear, and the sprite blit with collision. -/

namespace Sys2Proof.Machine

/-- The 64-bit mask of a sprite byte at column `col` (R212): the byte is placed at bits 127:120 of a
128-bit value and shifted right by `col`; bits 127:64 are kept, so bits that fall below bit 64 are
dropped, the right-hand clip (R214; the spec's own decision D20, log entry 14). -/
def spriteMask (b : Byte) (col : Nat) : PixelRow :=
  ((b.zeroExtend 128 <<< 120) >>> col).extractLsb' 64 64

/-- The blit of the sprite bytes from display row `row` on (R212): stops at row 32, the bottom clip;
each row is XORed, and a lit pixel met by a sprite bit before the XOR is a collision, accumulated
over all rows (R215). -/
def blit (disp : Vector PixelRow 32) (row col : Nat) : List Byte → Vector PixelRow 32 × Bool
  | [] => (disp, false)
  | b :: rest =>
    if h : row < 32 then
      let m := spriteMask b col
      let below := blit (disp.set row (disp[row] ^^^ m)) (row + 1) col rest
      (below.1, (disp[row] &&& m != 0) || below.2)
    else (disp, false)

/-- 00E0 CLS (R210). -/
def execCls (s : State) : Host.Outcome State Fault Refusal :=
  .next ({ s with disp := Vector.replicate 32 0 }).advance

/-- Dxyn DRW Vx,Vy,n (R212 to R216): the origin is taken mod 64 and mod 32 from the registers as they
are before `VF` is written (R213); the range of all `n` bytes is checked before anything is drawn,
those of clipped rows included; `VF` is written once, at the end. -/
def execDrw (x y n : BitVec 4) (s : State) : Host.Outcome State Fault Refusal :=
  match s.memRead s.I.toNat n.toNat with
  | some sprite =>
    let drawn := blit s.disp ((s.reg y).toNat % 32) ((s.reg x).toNat % 64) sprite
    .next (({ s with disp := drawn.1 }).setVF (flagByte drawn.2)).advance
  | none => .next (s.raise .memoryAccessViolation (encode (.drw x y n)))

end Sys2Proof.Machine
end

