-- ==== Sys2Proof/Machine/Flow.lean ====
section
/-! DEFINITION. Control transfer (spec/41_flow.md): RET, JP, CALL, JP V0, SE, SNE. Every meaning is
given the state before the instruction, with `pc` the instruction's own address `pc0`, and makes the
advance of R122 itself (log entry 15). -/

namespace Sys2Proof.Machine

/-- 00EE RET (R141): pop the stack into `pc`, as it is; `StackUnderflow` if it is empty. -/
def execRet (s : State) : Host.Outcome State Fault Refusal :=
  match s.stack with
  | [] => .next (s.raise .stackUnderflow (encode .ret))
  | top :: rest => .next { s with pc := top, stack := rest }

/-- 1nnn JP addr (R142). -/
def execJp (nnn : Addr12) (s : State) : Host.Outcome State Fault Refusal :=
  .next (s.setPc (zextAddr nnn))

/-- 2nnn CALL addr (R143): push `pc0 + 2` (the spec's own decisions D2 and D3, log entry 10). -/
def execCall (nnn : Addr12) (s : State) : Host.Outcome State Fault Refusal :=
  .next ((s.push (s.pc + 2)).setPc (zextAddr nnn))

/-- Bnnn JP V0,addr (R144): a 16-bit sum, not masked to 12 bits. -/
def execJpV0 (nnn : Addr12) (s : State) : Host.Outcome State Fault Refusal :=
  .next (s.setPc (zextAddr nnn + zextByte (s.reg 0)))

/-- 3xkk SE Vx,byte (R145). -/
def execSeByte (x : Reg) (kk : Byte) (s : State) : Host.Outcome State Fault Refusal :=
  .next (s.advanceSkippingIf (s.reg x == kk))

/-- 4xkk SNE Vx,byte (R146). -/
def execSneByte (x : Reg) (kk : Byte) (s : State) : Host.Outcome State Fault Refusal :=
  .next (s.advanceSkippingIf (s.reg x != kk))

/-- 5xy0 SE Vx,Vy (R147). -/
def execSeReg (x y : Reg) (s : State) : Host.Outcome State Fault Refusal :=
  .next (s.advanceSkippingIf (s.reg x == s.reg y))

/-- 9xy0 SNE Vx,Vy (R148). -/
def execSneReg (x y : Reg) (s : State) : Host.Outcome State Fault Refusal :=
  .next (s.advanceSkippingIf (s.reg x != s.reg y))

end Sys2Proof.Machine
end

