-- ==== Sys2Proof/Machine/IndexMemory.lean ====
section
/-! DEFINITION. The index register and memory transfer (spec/43_index_memory.md). A transfer is made
only if its whole range exists, else `MemoryAccessViolation` and nothing moves (R66); `I` is not
changed by a transfer (R196). -/

namespace Sys2Proof.Machine

/-- Annn LD I,addr (R190). -/
def execLdI (nnn : Addr12) (s : State) : Host.Outcome State Fault Refusal :=
  .next (s.setI (zextAddr nnn)).advance

/-- Fx1E ADD I,Vx (R191): a 16-bit sum, the flag from the wrapped result, written after `I`. -/
def execAddI (x : Reg) (s : State) : Host.Outcome State Fault Refusal :=
  let sum := s.I + zextByte (s.reg x)
  .next ((s.setI sum).setVF (indexOutFlag sum)).advance

/-- Fx29 LD F,Vx (R192). -/
def execLdF (x : Reg) (s : State) : Host.Outcome State Fault Refusal :=
  .next (s.setI (glyphAddress (lowNibble (s.reg x)))).advance

/-- Fx33 LD B,Vx (R193): hundreds, tens, ones at `I`, `I+1`, `I+2`. -/
def execLdB (x : Reg) (s : State) : Host.Outcome State Fault Refusal :=
  match s.memWrite s.I.toNat (bcdDigits (s.reg x)) with
  | some t => .next t.advance
  | none => .next (s.raise .memoryAccessViolation (encode (.ldB x)))

/-- Fx55 LD [I],Vx (R194): `V[k]` to `mem[I + k]` for `k = 0..x`. -/
def execStRegs (x : Reg) (s : State) : Host.Outcome State Fault Refusal :=
  match s.memWrite s.I.toNat (s.regsBelow (x.toNat + 1)) with
  | some t => .next t.advance
  | none => .next (s.raise .memoryAccessViolation (encode (.stRegs x)))

/-- Fx65 LD Vx,[I] (R195): `mem[I + k]` to `V[k]` for `k = 0..x`. -/
def execLdRegs (x : Reg) (s : State) : Host.Outcome State Fault Refusal :=
  if rangeExists s.I.toNat (x.toNat + 1) then .next (s.loadRegs (x.toNat + 1)).advance
  else .next (s.raise .memoryAccessViolation (encode (.ldRegs x)))

end Sys2Proof.Machine
end

