-- ==== Sys2Proof/Machine/KeypadTimers.lean ====
section
/-! DEFINITION. Keypad and timer instructions (spec/45_keypad_timers.md). None can fault. -/

namespace Sys2Proof.Machine

/-- Ex9E SKP Vx (R230): tests this tick's keys (R236). -/
def execSkp (x : Reg) (s : State) : Host.Outcome State Fault Refusal :=
  .next (s.advanceSkippingIf (keyHeld s.keysNow (lowNibble (s.reg x))))

/-- ExA1 SKNP Vx (R231). -/
def execSknp (x : Reg) (s : State) : Host.Outcome State Fault Refusal :=
  .next (s.advanceSkippingIf (!keyHeld s.keysNow (lowNibble (s.reg x))))

/-- Fx07 LD Vx,DT (R232). -/
def execLdVxDT (x : Reg) (s : State) : Host.Outcome State Fault Refusal :=
  .next (s.setReg x s.DT).advance

/-- Fx0A LD Vx,K (R233): on a release edge the smallest released key goes to `Vx`; otherwise `pc` is
back at `pc0` and nothing has changed, so the instruction is fetched again in the next slot. -/
def execLdVxK (x : Reg) (s : State) : Host.Outcome State Fault Refusal :=
  .next (match smallestKey (released s.keysPrev s.keysNow) with
    | some k => (s.setReg x (keyByte k)).advance
    | none => s)

/-- Fx15 LD DT,Vx (R234). -/
def execLdDT (x : Reg) (s : State) : Host.Outcome State Fault Refusal :=
  .next ({ s with DT := s.reg x }).advance

/-- Fx18 LD ST,Vx (R235): `tone` does not change until the next timer phase. -/
def execLdST (x : Reg) (s : State) : Host.Outcome State Fault Refusal :=
  .next ({ s with ST := s.reg x }).advance

end Sys2Proof.Machine
end

