-- ==== Sys2Proof/Machine/Stepper.lean ====
section
/-! DEFINITION. One instruction step (spec/40_cycle.md R120, R128) and the phases of a tick
(spec/60_exceptions.md R262 to R268): the Stepper and the timer and sound-gate unit. -/

namespace Sys2Proof.Machine

/-- The instruction step: fetch, decode, dispatch, execute (R128). The word it fetches is the one in
memory at that moment (R71, R121). -/
def instructionStep (s : State) : Host.Outcome State Fault Refusal :=
  match s.fetchWord with
  | none => .next (s.raise .fetchOutOfBounds 0x0000)
  | some op =>
    match decodeWord op with
    | .ok i => exec i s
    | .error _ => .next (s.raise .unknownOpcode op)

/-! ## Phases of a tick -/

/-- Phase 0: `keys_now <- keys_in` (R266). -/
def State.latchKeys (s : State) (keys : Keys) : State := { s with keysNow := keys }

/-- A timer counts down by one while it is not zero and then stays there (R263, R264). -/
def countDown (t : Byte) : Byte := if t = 0 then 0 else t - 1

/-- Phase 1: both timers count down; the tone gate is asserted iff the sound timer was not zero
before (R263, R264). -/
def State.timerPhase (s : State) : State :=
  { s with DT := countDown s.DT, ST := countDown s.ST, tone := s.ST != 0 }

/-- Phase 3: `keys_prev <- keys_now` (R266). -/
def State.latchPrevKeys (s : State) : State := { s with keysPrev := s.keysNow }

/-- The host's levels for this tick are taken off the port. -/
def State.consumeKeys (s : State) : State :=
  { s with keysIn := s.keysIn.tail, tickNo := s.tickNo + 1 }

/-- Phases 0 and 1, with the levels on the port `keys_in`. -/
def State.beginTick (s : State) : State := (s.consumeKeys.latchKeys s.nextKeys).timerPhase

/-- The next slot is the first of a tick. -/
def State.atTickStart (s : State) : Bool := s.slot = 0

/-- The slot that has just run is the last of its tick (R265). -/
def State.atTickEnd (s : State) : Bool := s.cfg.ipt ≤ s.slot + 1

/-- What comes before an instruction: phases 0 and 1 if it is the first of a tick, else nothing
(`beforeSlot_first`, `beforeSlot_later`). Written field by field, so that what does not depend on
`IPT` can be evaluated while `IPT` is free. -/
def State.beforeSlot (s : State) : State :=
  let b := s.beginTick
  { s with
    DT := if s.atTickStart then b.DT else s.DT
    ST := if s.atTickStart then b.ST else s.ST
    tone := if s.atTickStart then b.tone else s.tone
    keysNow := if s.atTickStart then b.keysNow else s.keysNow
    keysIn := if s.atTickStart then b.keysIn else s.keysIn
    tickNo := if s.atTickStart then b.tickNo else s.tickNo }

/-- What comes after an instruction: a fault ends the tick at once, without phase 3 (R268); the last
of the `IPT` slots is followed by phase 3; otherwise the next slot is due (R262, R265;
`afterSlot_halted`, `afterSlot_last`, `afterSlot_more`). Field by field, as `beforeSlot`. -/
def State.afterSlot (s : State) : State :=
  { s with
    slot := if s.halted || s.atTickEnd then 0 else s.slot + 1
    keysPrev := if !s.halted && s.atTickEnd then s.latchPrevKeys.keysPrev else s.keysPrev }

/-! ## The tick as one event, as R262 writes it -/

/-- Phase 2: up to `n` instruction steps, cut short by a fault (R265, R268). -/
def runSlots : Nat → State → Host.Outcome State Fault Refusal
  | 0, s => .next s
  | n + 1, s =>
    match instructionStep s with
    | .next t => if t.halted then .next t else runSlots n t
    | .fault r => .fault r
    | .refused r => .refused r

/-- `tick(keys_in)` (R262), atomic as the host sees it. While halted it changes nothing (R257). -/
def tick (keys : Keys) (s : State) : Host.Outcome State Fault Refusal :=
  if s.halted then .next s
  else
    match runSlots s.cfg.ipt (s.latchKeys keys).timerPhase with
    | .next t => .next (if t.halted then t else t.latchPrevKeys)
    | .fault r => .fault r
    | .refused r => .refused r

/-- What a tick returns to the host: the output ports as R37 to R40, R267 and the table of R270 list
them, without `mem`. The debug view that has `mem` beside `pc`, `I` and `stack`, decision D1, is
`DebugView` (log entry 25). -/
structure TickReport where
  tone : Bool
  disp : Vector PixelRow 32
  pc : Word
  I : Word
  stack : List Word
  fault : Option FaultRecord
  deriving DecidableEq, Repr

/-- The output ports of a state (R267). -/
def State.report (s : State) : TickReport :=
  ⟨s.tone, s.disp, s.pc, s.I, s.stack, s.fault⟩

/-- The read-only debug view as decision D1 of spec/92_eei_decisions.md lists it: `pc`, `I`, `stack` (the
whole sequence, R39) and `mem`, all 4096 bytes. R39, R267 and R273 list it without `mem` and R41 keeps
`mem` from the host during a run; that the model gives both, this view and `TickReport`, is a DESIGN
CHOICE (log entry 25). -/
structure DebugView where
  pc : Word
  I : Word
  stack : List Word
  mem : Vector Byte 4096
  deriving DecidableEq, Repr

/-- The debug view of a state (R39, D1): a reading of it, which changes nothing. -/
def State.debugView (s : State) : DebugView :=
  ⟨s.pc, s.I, s.stack, Vector.ofFn fun a => s.readByte a.val⟩

end Sys2Proof.Machine
end

