-- ==== Sys2Proof/Machine/Step.lean ====
section
/-! DEFINITION. The machine's step: one instruction slot, with the phases of the tick that stand
before the first and after the last slot (spec/60_exceptions.md R262; log entry 2). -/

namespace Sys2Proof.Machine

/-- One slot of a tick. A halted machine ignores ticks: nothing changes (R127, R257). -/
def step (s : State) : Host.Outcome State Fault Refusal :=
  if s.halted then .next s
  else
    match instructionStep s.beforeSlot with
    | .next t => .next t.afterSlot
    | .fault r => .fault r
    | .refused r => .refused r

/-- `k` steps of the machine, one after another. -/
def runSteps : Nat → State → Host.Outcome State Fault Refusal
  | 0, s => .next s
  | k + 1, s =>
    match step s with
    | .next t => runSteps k t
    | .fault r => .fault r
    | .refused r => .refused r

/-- The state with the instruction word `w` stored at `pc`, high byte first (R62), where the next
step fetches. It stands for the host's ROM load (log entry 9). Where the two bytes do not exist there
is nothing to store. -/
def State.withFetchWord (s : State) (nbits w : Nat) : State :=
  let op : Word := BitVec.ofNat 16 (w % 2 ^ nbits)
  match s.memWrite s.pc.toNat [highByte op, lowByte op] with
  | some t => t
  | none => s

end Sys2Proof.Machine
end

