-- ==== Sys2Proof/Safety.lean ====
section
/-! DEFINITION. The terms claims about the machine are stated in: what is left unchanged, what an
instruction may write (spec/10_state.md section 1, column "written by"), the invariants, and the
pixel-by-pixel reading of the display (spec/44_display.md R211). -/

namespace Sys2Proof.Machine

/-! ## Frames -/

/-- The pieces of state, as a frame names them. -/
inductive Part where
  /-- all sixteen general registers -/
  | regs
  | index
  | pc
  | stack
  | delay
  | sound
  | display
  | tone
  | keysNow
  | keysPrev
  | fault
  /-- every byte of memory -/
  | memory
  /-- the parameters of the run -/
  | cfg
  /-- the place in the tick -/
  | slot
  /-- the model's own carrier of the input `keys_in` -/
  | keysPort
  /-- the model's own carrier of the input `rnd_in` -/
  | rndPort
  deriving DecidableEq, Repr

/-- The part is the same in both states: a register file register by register, memory byte by byte
through the model's read of one byte. -/
def Part.same (s t : State) : Part → Prop
  | .regs => ∀ r, t.reg r = s.reg r
  | .index => t.I = s.I
  | .pc => t.pc = s.pc
  | .stack => t.stack = s.stack
  | .delay => t.DT = s.DT
  | .sound => t.ST = s.ST
  | .display => t.disp = s.disp
  | .tone => t.tone = s.tone
  | .keysNow => t.keysNow = s.keysNow
  | .keysPrev => t.keysPrev = s.keysPrev
  | .fault => t.fault = s.fault
  | .memory => ∀ a, t.readByte a = s.readByte a
  | .cfg => t.cfg = s.cfg
  | .slot => t.slot = s.slot
  | .keysPort => t.keysIn = s.keysIn ∧ t.tickNo = s.tickNo
  | .rndPort => t.rndIn = s.rndIn ∧ t.rndNo = s.rndNo

/-- Every part but the named ones is the same in `t` as in `s`. -/
def UnchangedExcept (changed : List Part) (s t : State) : Prop := ∀ p, p ∉ changed → p.same s t

/-- Every general register but the named ones is the same in `t` as in `s`. -/
def RegsUnchangedExcept (changed : List Reg) (s t : State) : Prop :=
  ∀ r, r ∉ changed → t.reg r = s.reg r

/-- What an instruction may write, from the column "written by" of spec/10_state.md section 1; every
instruction writes `pc`, and the five that can fault write the latch. -/
def writtenParts : Instr → List Part
  | .cls => [.pc, .display]
  | .ret => [.pc, .stack, .fault]
  | .jp _ | .jpV0 _ => [.pc]
  | .call _ => [.pc, .stack]
  | .seByte _ _ | .sneByte _ _ | .seReg _ _ | .sneReg _ _ | .skp _ | .sknp _ => [.pc]
  | .ldByte _ _ | .addByte _ _ | .ldReg _ _ | .orReg _ _ | .andReg _ _ | .xorReg _ _ => [.pc, .regs]
  | .addReg _ _ | .subReg _ _ | .shrReg _ _ | .subnReg _ _ | .shlReg _ _ => [.pc, .regs]
  | .rnd _ _ => [.pc, .regs, .rndPort]
  | .ldVxDT _ | .ldVxK _ => [.pc, .regs]
  | .ldDT _ => [.pc, .delay]
  | .ldST _ => [.pc, .sound]
  | .ldI _ | .ldF _ => [.pc, .index]
  | .addI _ => [.pc, .index, .regs]
  | .ldB _ | .stRegs _ => [.pc, .memory, .fault]
  | .ldRegs _ => [.pc, .regs, .fault]
  | .drw _ _ _ => [.pc, .display, .regs, .fault]

/-- The general registers an instruction may write: its destination, and `VF` for the instructions of
R22's table. -/
def writtenRegs : Instr → List Reg
  | .ldByte x _ | .addByte x _ | .ldReg x _ | .rnd x _ | .ldVxDT x | .ldVxK x => [x]
  | .orReg x _ | .andReg x _ | .xorReg x _ => [x, regF]
  | .addReg x _ | .subReg x _ | .shrReg x _ | .subnReg x _ | .shlReg x _ => [x, regF]
  | .addI _ | .drw _ _ _ => [regF]
  | .ldRegs x => (List.range (x.toNat + 1)).map (BitVec.ofNat 4)
  | .cls | .ret | .jp _ | .call _ | .jpV0 _ | .seByte _ _ | .sneByte _ _ | .seReg _ _ => []
  | .sneReg _ _ | .ldI _ | .skp _ | .sknp _ | .ldDT _ | .ldST _ | .ldF _ | .ldB _ | .stRegs _ => []

/-- The instruction takes a fault in this state (R253, R254). -/
def faultOf (i : Instr) (s : State) : Option Fault :=
  match i with
  | .ret => if s.stack = [] then some .stackUnderflow else none
  | .ldB _ => if s.I.toNat + 2 > 0xFFF then some .memoryAccessViolation else none
  | .stRegs x | .ldRegs x => if s.I.toNat + x.toNat > 0xFFF then some .memoryAccessViolation else none
  | .drw _ _ n =>
    if n.toNat ≥ 1 ∧ s.I.toNat + n.toNat - 1 > 0xFFF then some .memoryAccessViolation else none
  | _ => none

/-! ## Invariants -/

/-- Memory is in canonical form (the model's, log entry 7) and lists no address outside 0x000 to 0xFFF
(R20). -/
def State.memOk (s : State) : Prop := Memory.wf s.cfg s.mem = true

/-- `pc` is at most 0x10FE, the largest value any instruction can produce (R24, R25). -/
def State.pcOk (s : State) : Prop := s.pc.toNat ≤ 0x10FE

/-- Every stack entry is the address after some `CALL`, in 0x0002 to 0x1000 (R26). -/
def State.stackOk (s : State) : Prop := ∀ r ∈ s.stack, 0x0002 ≤ r.toNat ∧ r.toNat ≤ 0x1000

/-- The place in the tick (the model's, log entry 2) is one of its `IPT` slots (R265). -/
def State.slotOk (s : State) : Prop := s.slot < s.cfg.ipt

/-- What every step keeps. -/
def State.Inv (s : State) : Prop := s.memOk ∧ s.pcOk ∧ s.stackOk ∧ s.slotOk

/-! ## Memory after a store -/

/-- The byte at address `a` once `bytes` have been stored from address `base` upward over memory that
read as `old`: the stored byte where one was stored, else the old one. -/
def storedOver (old : Nat → Byte) (base : Nat) (bytes : List Byte) (a : Nat) : Byte :=
  if h : base ≤ a ∧ a < base + bytes.length then bytes[a - base]'(by omega) else old a

/-! ## The display, pixel by pixel -/

/-- Column `c` of row `r` is bit `63 - c` of `disp[r]` (R28, R211); `false` off the screen. -/
def State.pixel (s : State) (r c : Nat) : Bool :=
  if h : r < 32 ∧ c < 64 then (s.disp[r]'h.1).getLsbD (63 - c) else false

/-- The sprite of `n` rows at `I`, drawn with its origin at row `row0`, column `col`, has a 1 bit at
row `r`, column `c`: bit `7 - j` of the byte at `I + k` goes to row `row0 + k`, column `col + j`
(R211). Nothing is said of rows and columns off the screen. -/
def State.spriteBit (s : State) (n row0 col r c : Nat) : Bool :=
  decide (row0 ≤ r ∧ r < row0 + n ∧ col ≤ c ∧ c < col + 8) &&
    (s.readByte (s.I.toNat + (r - row0))).getLsbD (7 - (c - col))

end Sys2Proof.Machine
end

