-- ==== Sys2Proof/Certificates/Slice0/Obligations.lean ====
section
/-! DEFINITION. The statements for the provers. Each docstring names the rule of spec/ it formalises.
Where a clause rests on a decision of the spec's own (spec/92_eei_decisions.md), it says so and names
the entry of the assumption log. In every statement about `exec`, the state `s` is the one before the
instruction, with `pc` the instruction's own address. -/

open Sys2Proof Sys2Proof.Machine

/-! ## Encoding -/

/-- Every instruction, with every operand, is what its own word decodes to (30_encoding.md R95, R96:
no bit of an encoding is dropped). -/
def Obligations.DecodeInvertsEncode : Prop :=
  ∀ i : Instr, decodeWord (encode i) = .ok i

/-- A word that decodes is the word of the instruction it decodes to: each instruction has one word
(30_encoding.md R92, R95), so the fault latch may take its `op` from the instruction. -/
def Obligations.EncodeInvertsDecode : Prop :=
  ∀ (op : Word) (i : Instr), decodeWord op = .ok i → encode i = op

/-- Decoding is total and follows the opcode map (30_encoding.md R92, R95, R96, R100): what it gives
is an instruction of a row the word is an instance of; a word that is an instance of a row is that
row's instruction (so no word is an instance of two rows); any other word is rejected with the raw
word. -/
def Obligations.DecodesByTheOpcodeMap : Prop :=
  ∀ op : Word,
    (∀ i, decodeWord op = .ok i → i.row ∈ opcodeMap ∧ i.row.admits op = true) ∧
    (∀ r ∈ opcodeMap, r.admits op = true → ∃ i, decodeWord op = .ok i ∧ i.row = r) ∧
    ((∀ r ∈ opcodeMap, r.admits op = false) → decodeWord op = .error (.unknownOpcode op))

/-- A few words, one or more of each family, as the worked examples of the rules and the vectors of
95_test_vectors.md give them (sanity). -/
def Obligations.SampleWordsDecode : Prop :=
  decodeWord 0x00E0 = .ok .cls ∧ decodeWord 0x00EE = .ok .ret ∧
  decodeWord 0x1234 = .ok (.jp 0x234) ∧ decodeWord 0xB300 = .ok (.jpV0 0x300) ∧
  decodeWord 0x3A05 = .ok (.seByte 0xA 0x05) ∧ decodeWord 0x9120 = .ok (.sneReg 1 2) ∧
  decodeWord 0x8127 = .ok (.subnReg 1 2) ∧ decodeWord 0xC10F = .ok (.rnd 1 0x0F) ∧
  decodeWord 0xA2F0 = .ok (.ldI 0x2F0) ∧ decodeWord 0xF165 = .ok (.ldRegs 1) ∧
  decodeWord 0xD014 = .ok (.drw 0 1 4) ∧ decodeWord 0xE1A1 = .ok (.sknp 1) ∧
  decodeWord 0xF50A = .ok (.ldVxK 5) ∧ decodeWord 0x0123 = .error (.unknownOpcode 0x0123)

/-! ## Fetch and step -/

/-- 20_memory.md R62: fetch is big-endian, the byte at the lower address the more significant; `n0`
and `n1` are the high and low nibble of the first byte, `n2` and `n3` of the second, `addr` the low
nibble of the first byte with the second byte, `byte` the second byte. -/
def Obligations.FetchIsBigEndian : Prop :=
  ∀ (s : State) (op : Word), s.fetchWord = some op →
    op = s.readByte s.pc.toNat ++ s.readByte (s.pc.toNat + 1) ∧
    fieldN0 op = (s.readByte s.pc.toNat).extractLsb' 4 4 ∧
    fieldX op = (s.readByte s.pc.toNat).extractLsb' 0 4 ∧
    fieldY op = (s.readByte (s.pc.toNat + 1)).extractLsb' 4 4 ∧
    fieldN op = (s.readByte (s.pc.toNat + 1)).extractLsb' 0 4 ∧
    fieldNNN op = (s.readByte s.pc.toNat).extractLsb' 0 4 ++ s.readByte (s.pc.toNat + 1) ∧
    fieldKK op = s.readByte (s.pc.toNat + 1)

/-- The fetch bound (20_memory.md R65, 40_cycle.md R121, 60_exceptions.md R251; the spec's own decision
D6, log entry 10): the fetch is made exactly if `pc + 1 <= 0xFFF`; otherwise the step raises
`FetchOutOfBounds`. That the latch then records `pc` and 0x0000 and that nothing else changes is the
spec's own decision D7 (40_cycle.md R125, 60_exceptions.md R250, R256, log entry 11). -/
def Obligations.FetchOutOfBoundsFaults : Prop :=
  ∀ s : State,
    (s.fetchWord = none ↔ s.pc.toNat + 1 > 0xFFF) ∧
    (s.pc.toNat + 1 > 0xFFF →
      instructionStep s = .next { s with fault := some ⟨.fetchOutOfBounds, s.pc, 0x0000⟩ })

/-- A word that is an instance of no row raises `UnknownOpcode` with `pc0` and the raw word, and writes
the fault latch only; and the worked example of the rule (40_cycle.md R124; that the fault is precise
and what the latch records are the spec's own decision D7, log entry 11). -/
def Obligations.UnmatchedWordRaisesUnknownOpcode : Prop :=
  (∀ (s : State) (op : Word), s.fetchWord = some op → (∀ r ∈ opcodeMap, r.admits op = false) →
    instructionStep s = .next { s with fault := some ⟨.unknownOpcode, s.pc, op⟩ }) ∧
  (∀ s : State, s.pc = 0x200 → s.readByte 0x200 = 0x00 → s.readByte 0x201 = 0x00 →
    ∃ t, instructionStep s = .next t ∧ t.pc = 0x200 ∧
      t.fault = some ⟨.unknownOpcode, 0x0200, 0x0000⟩ ∧ UnchangedExcept [.fault] s t)

/-- A step runs the decoded instruction (40_cycle.md R120, R128; how a step stands in its tick is the
model's framing, log entry 2): at a state that is not halted and whose two bytes at `pc` decode to
`i`, the step is `exec i` on the state with the tick's opening phases done if this is its first slot,
followed by what ends a slot. -/
def Obligations.StepRunsTheDecodedInstruction : Prop :=
  ∀ (s : State) (i : Instr) (t : State),
    s.halted = false → s.pc.toNat + 1 ≤ 0xFFF →
    decodeWord (wordOfBytes (s.readByte s.pc.toNat) (s.readByte (s.pc.toNat + 1))) = .ok i →
    exec i s.beforeSlot = .next t → step s = .next t.afterSlot

/-- What stands around an instruction in a step (60_exceptions.md R262, R265, R266, R268; the place in
the tick and the end of a faulted tick are the model's framing, log entries 2 and 16). Before the first
slot: the levels on `keys_in` are latched and the timer phase runs; before a later slot: nothing. That
the levels come from `nextKeys` and are taken off the model's carrier of that free input
(`consumeKeys`) is the model's choice, log entry 3. After a fault: the tick is over, `keys_prev` as it
was (R268; the spec's own decision D7, log entry 11). After the last slot: `keys_prev` takes
`keys_now` and the tick is over. After any other slot: the next slot is due. -/
def Obligations.SlotsStandInTheirTick : Prop :=
  ∀ s : State,
    (s.slot = 0 → s.beforeSlot = (s.consumeKeys.latchKeys s.nextKeys).timerPhase) ∧
    (s.slot ≠ 0 → s.beforeSlot = s) ∧
    (s.halted = true → s.afterSlot.slot = 0 ∧ UnchangedExcept [.slot] s s.afterSlot) ∧
    (s.halted = false → s.slot + 1 < s.cfg.ipt →
      s.afterSlot.slot = s.slot + 1 ∧ UnchangedExcept [.slot] s s.afterSlot) ∧
    (s.halted = false → s.cfg.ipt ≤ s.slot + 1 →
      s.afterSlot.slot = 0 ∧ s.afterSlot.keysPrev = s.keysNow ∧
      UnchangedExcept [.slot, .keysPrev] s s.afterSlot)

/-- While halted the machine ignores ticks, nothing changes (40_cycle.md R127, 60_exceptions.md R257;
the spec's own decision D7, log entry 11). -/
def Obligations.HaltedMachineIgnoresTicks : Prop :=
  ∀ (s : State) (keys : Keys), s.halted = true → step s = .next s ∧ tick keys s = .next s

/-! ## Control transfer -/

/-- RET pops the stack into `pc`, as it is; on an empty stack it raises `StackUnderflow` and nothing
else changes (41_flow.md R141, 60_exceptions.md R253; that nothing is added to the popped value is the
spec's own decision D3, log entry 10, that the fault is precise D7, log entry 11). -/
def Obligations.RetPopsOrUnderflows : Prop :=
  decodeWord 0x00EE = .ok .ret ∧
  ∀ s : State,
    (∀ top rest, s.stack = top :: rest →
      ∃ t, exec .ret s = .next t ∧ t.pc = top ∧ t.stack = rest ∧ UnchangedExcept [.pc, .stack] s t) ∧
    (s.stack = [] →
      ∃ t, exec .ret s = .next t ∧ t.fault = some ⟨.stackUnderflow, s.pc, 0x00EE⟩ ∧
        UnchangedExcept [.fault] s t)

/-- 41_flow.md R142: JP loads `pc` with the zero-extended `nnn`; it cannot fault. -/
def Obligations.JpLoadsPc : Prop :=
  ∀ (nnn : Addr12) (s : State),
    decodeWord (0x1#4 ++ nnn) = .ok (.jp nnn) ∧
    ∃ t, exec (.jp nnn) s = .next t ∧ t.pc.toNat = nnn.toNat ∧ UnchangedExcept [.pc] s t

/-- CALL pushes `pc0 + 2` and loads `pc` (41_flow.md R143; what it pushes is the spec's own decision
D3, log entry 10). -/
def Obligations.CallPushesReturnAddress : Prop :=
  ∀ (nnn : Addr12) (s : State),
    ∃ t, exec (.call nnn) s = .next t ∧ t.stack = (s.pc + 2) :: s.stack ∧
      t.pc.toNat = nnn.toNat ∧ UnchangedExcept [.pc, .stack] s t

/-- What a CALL pushed, a RET that finds it on top returns to, and leaves the stack as it was before
the CALL (41_flow.md R141, R143; 10_state.md R26). -/
def Obligations.RetReturnsAfterItsCall : Prop :=
  ∀ (nnn : Addr12) (s t u : State), exec (.call nnn) s = .next t → u.stack = t.stack →
    ∃ v, exec .ret u = .next v ∧ v.pc = s.pc + 2 ∧ v.stack = s.stack

/-- 41_flow.md R144: JP V0 loads `pc` with the 16-bit sum of `nnn` and `V0`, which never wraps and is
not masked; it cannot fault. -/
def Obligations.JpV0AddsV0 : Prop :=
  ∀ (nnn : Addr12) (s : State),
    decodeWord (0xB#4 ++ nnn) = .ok (.jpV0 nnn) ∧
    ∃ t, exec (.jpV0 nnn) s = .next t ∧ t.pc.toNat = nnn.toNat + (s.reg 0).toNat ∧
      UnchangedExcept [.pc] s t

/-- SE and SNE with a byte go on at `pc0 + 4` if the comparison holds, at `pc0 + 2` if not; only `pc`
changes (41_flow.md R145, R146, R149; the advance before the skip and its end at 0x1002 are the spec's
own decisions D2 and D4, log entry 10). -/
def Obligations.ByteSkipsCompare : Prop :=
  ∀ (x : Reg) (kk : Byte) (s : State),
    (decodeWord (0x3#4 ++ x ++ kk) = .ok (.seByte x kk) ∧
      ∃ t, exec (.seByte x kk) s = .next t ∧
        t.pc = (if s.reg x = kk then s.pc + 4 else s.pc + 2) ∧ UnchangedExcept [.pc] s t) ∧
    (decodeWord (0x4#4 ++ x ++ kk) = .ok (.sneByte x kk) ∧
      ∃ t, exec (.sneByte x kk) s = .next t ∧
        t.pc = (if s.reg x ≠ kk then s.pc + 4 else s.pc + 2) ∧ UnchangedExcept [.pc] s t)

/-- SE and SNE of two registers; a function nibble other than 0 is an unknown opcode; with `x = y` SE
always skips and SNE never (41_flow.md R147, R148, R149; the advance before the skip and its end at
0x1002 are the spec's own decisions D2 and D4, log entry 10). -/
def Obligations.RegisterSkipsCompare : Prop :=
  ∀ (x y n : BitVec 4) (s : State),
    (decodeWord (0x5#4 ++ x ++ y ++ n) =
        (if n = 0 then .ok (.seReg x y) else .error (.unknownOpcode (0x5#4 ++ x ++ y ++ n))) ∧
      ∃ t, exec (.seReg x y) s = .next t ∧
        t.pc = (if s.reg x = s.reg y then s.pc + 4 else s.pc + 2) ∧ UnchangedExcept [.pc] s t) ∧
    (decodeWord (0x9#4 ++ x ++ y ++ n) =
        (if n = 0 then .ok (.sneReg x y) else .error (.unknownOpcode (0x9#4 ++ x ++ y ++ n))) ∧
      ∃ t, exec (.sneReg x y) s = .next t ∧
        t.pc = (if s.reg x ≠ s.reg y then s.pc + 4 else s.pc + 2) ∧ UnchangedExcept [.pc] s t)

/-! ## Load, arithmetic, logic, shift, random -/

/-- 42_alu.md R161, R162, R163: LD Vx,byte; ADD Vx,byte, wrapping, with no flag, so that `VF` changes
only where it is the destination; LD Vx,Vy. -/
def Obligations.PlainRegisterWrites : Prop :=
  ∀ (x y : Reg) (kk : Byte) (s : State),
    (decodeWord (0x6#4 ++ x ++ kk) = .ok (.ldByte x kk) ∧
      ∃ t, exec (.ldByte x kk) s = .next t ∧ t.reg x = kk ∧ RegsUnchangedExcept [x] s t ∧
        t.pc = s.pc + 2 ∧ UnchangedExcept [.pc, .regs] s t) ∧
    (decodeWord (0x7#4 ++ x ++ kk) = .ok (.addByte x kk) ∧
      ∃ t, exec (.addByte x kk) s = .next t ∧
        (t.reg x).toNat = ((s.reg x).toNat + kk.toNat) % 256 ∧ RegsUnchangedExcept [x] s t ∧
        t.pc = s.pc + 2 ∧ UnchangedExcept [.pc, .regs] s t) ∧
    (decodeWord (0x8#4 ++ x ++ y ++ 0x0#4) = .ok (.ldReg x y) ∧
      ∃ t, exec (.ldReg x y) s = .next t ∧ t.reg x = s.reg y ∧ RegsUnchangedExcept [x] s t ∧
        t.pc = s.pc + 2 ∧ UnchangedExcept [.pc, .regs] s t)

/-- OR, AND and XOR (42_alu.md R164 to R167): the result goes to `Vx`; under `LOGIC_CLEARS_VF`, `VF`
ends 0, with `x = F` too, where the result is lost (the write order is the spec's own decision D9,
log entry 12); otherwise `VF` is written only as the destination. -/
def Obligations.LogicWritesResultAndQuirk : Prop :=
  ∀ (x y : Reg) (s : State),
    (∃ t, exec (.orReg x y) s = .next t ∧
      (∀ r, t.reg r =
        if s.cfg.logicClearsVF = true ∧ r = 0xF then 0
        else if r = x then s.reg x ||| s.reg y else s.reg r) ∧
      t.pc = s.pc + 2 ∧ UnchangedExcept [.pc, .regs] s t) ∧
    (∃ t, exec (.andReg x y) s = .next t ∧
      (∀ r, t.reg r =
        if s.cfg.logicClearsVF = true ∧ r = 0xF then 0
        else if r = x then s.reg x &&& s.reg y else s.reg r) ∧
      t.pc = s.pc + 2 ∧ UnchangedExcept [.pc, .regs] s t) ∧
    (∃ t, exec (.xorReg x y) s = .next t ∧
      (∀ r, t.reg r =
        if s.cfg.logicClearsVF = true ∧ r = 0xF then 0
        else if r = x then s.reg x ^^^ s.reg y else s.reg r) ∧
      t.pc = s.pc + 2 ∧ UnchangedExcept [.pc, .regs] s t)

/-- ADD Vx,Vy (42_alu.md R168): the sum mod 256 in `Vx` and the carry in `VF`; with `x = F` the carry
is what `VF` holds (the spec's own decision D9, log entry 12). Both operands are the old values. -/
def Obligations.AddSetsCarry : Prop :=
  ∀ (x y : Reg) (s : State),
    ∃ t, exec (.addReg x y) s = .next t ∧
      (x ≠ 0xF → (t.reg x).toNat = ((s.reg x).toNat + (s.reg y).toNat) % 256) ∧
      (t.reg 0xF).toNat = (if (s.reg x).toNat + (s.reg y).toNat > 255 then 1 else 0) ∧
      RegsUnchangedExcept [x, 0xF] s t ∧ t.pc = s.pc + 2 ∧ UnchangedExcept [.pc, .regs] s t

/-- SUB and SUBN (42_alu.md R169, R171): the difference mod 256 in `Vx` and 1 in `VF` iff there was no
borrow; with `x = F` the flag is what `VF` holds (the spec's own decision D9, log entry 12). -/
def Obligations.SubtractionsSetNoBorrow : Prop :=
  ∀ (x y : Reg) (s : State),
    (∃ t, exec (.subReg x y) s = .next t ∧
      (x ≠ 0xF → (t.reg x).toNat = ((s.reg x).toNat + 256 - (s.reg y).toNat) % 256) ∧
      (t.reg 0xF).toNat = (if (s.reg x).toNat ≥ (s.reg y).toNat then 1 else 0) ∧
      RegsUnchangedExcept [x, 0xF] s t ∧ t.pc = s.pc + 2 ∧ UnchangedExcept [.pc, .regs] s t) ∧
    (∃ t, exec (.subnReg x y) s = .next t ∧
      (x ≠ 0xF → (t.reg x).toNat = ((s.reg y).toNat + 256 - (s.reg x).toNat) % 256) ∧
      (t.reg 0xF).toNat = (if (s.reg y).toNat ≥ (s.reg x).toNat then 1 else 0) ∧
      RegsUnchangedExcept [x, 0xF] s t ∧ t.pc = s.pc + 2 ∧ UnchangedExcept [.pc, .regs] s t)

/-- SHR and SHL (42_alu.md R170, R172): `Vy` shifted by one place into `Vx`, the bit shifted out in
`VF`; with `x = F` the flag is what `VF` holds (the spec's own decision D9, log entry 12). -/
def Obligations.ShiftsReadVy : Prop :=
  ∀ (x y : Reg) (s : State),
    (∃ t, exec (.shrReg x y) s = .next t ∧
      (x ≠ 0xF → (t.reg x).toNat = (s.reg y).toNat / 2) ∧
      (t.reg 0xF).toNat = (s.reg y).toNat % 2 ∧
      RegsUnchangedExcept [x, 0xF] s t ∧ t.pc = s.pc + 2 ∧ UnchangedExcept [.pc, .regs] s t) ∧
    (∃ t, exec (.shlReg x y) s = .next t ∧
      (x ≠ 0xF → (t.reg x).toNat = 2 * (s.reg y).toNat % 256) ∧
      (t.reg 0xF).toNat = (s.reg y).toNat / 128 ∧
      RegsUnchangedExcept [x, 0xF] s t ∧ t.pc = s.pc + 2 ∧ UnchangedExcept [.pc, .regs] s t)

/-- RND (42_alu.md R173; that the byte is a free input is the spec's own decision D12, log entry 4):
`Vx` takes the byte on `rnd_in`, whatever it is, ANDed with `kk`, and the byte is used up: the next
sample is the next byte. Bits outside the mask are 0. -/
def Obligations.RndMasksTheSample : Prop :=
  ∀ (x : Reg) (kk : Byte) (s : State),
    ∃ t, exec (.rnd x kk) s = .next t ∧ t.reg x = s.nextRnd &&& kk ∧ (t.reg x) &&& ~~~kk = 0 ∧
      (∀ r rest, s.rndIn = r :: rest → t.reg x = r &&& kk ∧ t.rndIn = rest) ∧
      (s.rndIn = [] → t.rndIn = []) ∧ t.rndNo = s.rndNo + 1 ∧
      RegsUnchangedExcept [x] s t ∧ t.pc = s.pc + 2 ∧ UnchangedExcept [.pc, .regs, .rndPort] s t

/-! ## Index register and memory transfer -/

/-- 43_index_memory.md R190, R192: LD I loads the zero-extended `nnn`; LD F loads `0x050 + 5*d` for
the digit `d` in the low nibble of `Vx`, whatever memory holds. -/
def Obligations.IndexLoads : Prop :=
  (∀ (nnn : Addr12) (s : State),
    decodeWord (0xA#4 ++ nnn) = .ok (.ldI nnn) ∧
    ∃ t, exec (.ldI nnn) s = .next t ∧ t.I.toNat = nnn.toNat ∧ t.pc = s.pc + 2 ∧
      UnchangedExcept [.pc, .index] s t) ∧
  (∀ (x : Reg) (s : State),
    decodeWord (0xF#4 ++ x ++ 0x29#8) = .ok (.ldF x) ∧
    ∃ t, exec (.ldF x) s = .next t ∧ t.I.toNat = 0x050 + 5 * ((s.reg x).toNat % 16) ∧
      t.pc = s.pc + 2 ∧ UnchangedExcept [.pc, .index] s t)

/-- ADD I,Vx (43_index_memory.md R191): the 16-bit sum in `I`, and 1 in `VF` iff it exceeds 0xFFF; no
fault. That the sum wraps and the flag is taken from the wrapped value is the spec's own decision D10,
that with `x = F` the old `VF` is added D9 (log entry 12). -/
def Obligations.AddIndexFlagsOverrun : Prop :=
  ∀ (x : Reg) (s : State),
    ∃ t, exec (.addI x) s = .next t ∧
      t.I.toNat = (s.I.toNat + (s.reg x).toNat) % 65536 ∧
      (t.reg 0xF).toNat = (if (s.I.toNat + (s.reg x).toNat) % 65536 > 0xFFF then 1 else 0) ∧
      RegsUnchangedExcept [0xF] s t ∧ t.pc = s.pc + 2 ∧ UnchangedExcept [.pc, .index, .regs] s t

/-- LD B (43_index_memory.md R193): in a state whose memory is canonical and with `I + 2 <= 0xFFF`,
the decimal digits of `Vx` at `I`, `I+1`, `I+2`, every other byte as before; otherwise
`MemoryAccessViolation` and nothing else changes (checking first, and precision, are the spec's own
decisions D8 and D7, log entry 11; that `I` is unchanged, R196, is D11, log entry 13). -/
def Obligations.BcdStoresThreeDigits : Prop :=
  ∀ (x : Reg) (s : State),
    (s.memOk → s.I.toNat + 2 ≤ 0xFFF →
      ∃ t, exec (.ldB x) s = .next t ∧
        (t.readByte s.I.toNat).toNat = (s.reg x).toNat / 100 ∧
        (t.readByte (s.I.toNat + 1)).toNat = (s.reg x).toNat / 10 % 10 ∧
        (t.readByte (s.I.toNat + 2)).toNat = (s.reg x).toNat % 10 ∧
        (∀ a, ¬(s.I.toNat ≤ a ∧ a < s.I.toNat + 3) → t.readByte a = s.readByte a) ∧
        t.pc = s.pc + 2 ∧ UnchangedExcept [.pc, .memory] s t) ∧
    (s.I.toNat + 2 > 0xFFF →
      exec (.ldB x) s =
        .next { s with fault := some ⟨.memoryAccessViolation, s.pc, 0xF#4 ++ x ++ 0x33#8⟩ })

/-- LD [I],Vx (43_index_memory.md R194): in a state whose memory is canonical and with
`I + x <= 0xFFF`, `V[k]` at `I + k` for `k = 0..x`, every other byte as before; otherwise
`MemoryAccessViolation` and nothing else changes (the spec's own decisions D7, D8, log entry 11; that
`I` is unchanged, D11, log entry 13). -/
def Obligations.StoreRegistersWritesTheRange : Prop :=
  ∀ (x : Reg) (s : State),
    (s.memOk → s.I.toNat + x.toNat ≤ 0xFFF →
      ∃ t, exec (.stRegs x) s = .next t ∧
        (∀ k : Reg, k.toNat ≤ x.toNat → t.readByte (s.I.toNat + k.toNat) = s.reg k) ∧
        (∀ a, ¬(s.I.toNat ≤ a ∧ a ≤ s.I.toNat + x.toNat) → t.readByte a = s.readByte a) ∧
        t.pc = s.pc + 2 ∧ UnchangedExcept [.pc, .memory] s t) ∧
    (s.I.toNat + x.toNat > 0xFFF →
      exec (.stRegs x) s =
        .next { s with fault := some ⟨.memoryAccessViolation, s.pc, 0xF#4 ++ x ++ 0x55#8⟩ })

/-- LD Vx,[I] (43_index_memory.md R195): with `I + x <= 0xFFF`, `mem[I + k]` to `V[k]` for
`k = 0..x`, the registers above `Vx` and all of memory as before; otherwise `MemoryAccessViolation`
and nothing else changes (the spec's own decisions D7, D8, log entry 11; that `I` is unchanged, D11,
log entry 13). -/
def Obligations.LoadRegistersReadsTheRange : Prop :=
  ∀ (x : Reg) (s : State),
    (s.I.toNat + x.toNat ≤ 0xFFF →
      ∃ t, exec (.ldRegs x) s = .next t ∧
        (∀ k : Reg, t.reg k =
          if k.toNat ≤ x.toNat then s.readByte (s.I.toNat + k.toNat) else s.reg k) ∧
        t.pc = s.pc + 2 ∧ UnchangedExcept [.pc, .regs] s t) ∧
    (s.I.toNat + x.toNat > 0xFFF →
      exec (.ldRegs x) s =
        .next { s with fault := some ⟨.memoryAccessViolation, s.pc, 0xF#4 ++ x ++ 0x65#8⟩ })

/-- Memory is idempotent storage: a write, made, stores the bytes at ascending addresses, leaves every
other byte and everything else alone, and a read of its range gives exactly its bytes (00_scope.md R15,
20_memory.md R68). That the primitive itself answers exactly if its range exists is the model's choice
(log entry 24): R15 leaves the check to the rules that use it, and R66's check of the whole range, none
for an empty one, is the spec's own decision D8 (log entry 11). The canonical form, assumed before and
kept, is the model's (log entry 7). -/
def Obligations.MemoryHoldsWhatWasWritten : Prop :=
  ∀ (s : State) (a : Nat) (bytes : List Byte),
    ((s.memWrite a bytes).isSome = true ↔ bytes = [] ∨ a + bytes.length - 1 ≤ 0xFFF) ∧
    (∀ t, s.memOk → s.memWrite a bytes = some t →
      (∀ k, (h : k < bytes.length) → t.readByte (a + k) = bytes[k]) ∧
      (∀ b, ¬(a ≤ b ∧ b < a + bytes.length) → t.readByte b = s.readByte b) ∧
      t.memRead a bytes.length = some bytes ∧ t.memOk ∧ UnchangedExcept [.memory] s t)

/-- What LD [I],Vx or LD B stores is what the very next fetch reads, wherever it fetches
(20_memory.md R71; the spec marks it as derived). The next fetch is at `pc + 2`; the clause holds for
every address `p` a fetch can be made at, so for a store that covers both bytes of the word, one of
them, or none. The stored bytes are R194's and R193's; the whole range exists (the spec's own decision
D8, log entry 11), and memory is canonical before (log entry 7). -/
def Obligations.NextFetchSeesTheStore : Prop :=
  ∀ (x : Reg) (s : State), s.memOk →
    (s.I.toNat + x.toNat ≤ 0xFFF →
      ∃ t, exec (.stRegs x) s = .next t ∧ t.pc = s.pc + 2 ∧
        ∀ p : Word, p.toNat + 1 ≤ 0xFFF →
          let byte := storedOver s.readByte s.I.toNat
            ((List.range (x.toNat + 1)).map fun k => s.reg (BitVec.ofNat 4 k))
          (t.setPc p).fetchWord = some (byte p.toNat ++ byte (p.toNat + 1))) ∧
    (s.I.toNat + 2 ≤ 0xFFF →
      ∃ t, exec (.ldB x) s = .next t ∧ t.pc = s.pc + 2 ∧
        ∀ p : Word, p.toNat + 1 ≤ 0xFFF →
          let byte := storedOver s.readByte s.I.toNat
            [BitVec.ofNat 8 ((s.reg x).toNat / 100), BitVec.ofNat 8 ((s.reg x).toNat / 10 % 10),
              BitVec.ofNat 8 ((s.reg x).toNat % 10)]
          (t.setPc p).fetchWord = some (byte p.toNat ++ byte (p.toNat + 1)))

/-! ## Display -/

/-- 44_display.md R210: CLS makes every row 0 and touches nothing else, `VF` included. -/
def Obligations.ClsClearsEveryRow : Prop :=
  decodeWord 0x00E0 = .ok .cls ∧
  ∀ s : State, ∃ t, exec .cls s = .next t ∧ (∀ r : Fin 32, t.disp[r] = 0) ∧ t.pc = s.pc + 2 ∧
    UnchangedExcept [.pc, .display] s t

/-- DRW, pixel by pixel (44_display.md R211 to R216): if the range of `n` bytes at `I` exists (always,
for `n = 0`), each pixel on the screen is inverted iff the sprite, with its origin at row `Vy mod 32`,
column `Vx mod 64`, has a 1 bit there; `VF` is 1 iff some inverted pixel was lit, else 0. What falls
off the bottom or the right edge is dropped. That the range is checked as a whole first is the spec's
own decision D8 (log entry 11), the old `VF` as a coordinate D9 (log entry 12), the right-hand clip and
the bit order D20 (log entry 14). -/
def Obligations.DrwXorsTheSpriteAndReportsCollision : Prop :=
  ∀ (x y n : BitVec 4) (s : State), (n = 0 ∨ s.I.toNat + n.toNat - 1 ≤ 0xFFF) →
    ∃ t, exec (.drw x y n) s = .next t ∧
      (∀ r c, r < 32 → c < 64 →
        t.pixel r c =
          (s.pixel r c ^^
            s.spriteBit n.toNat ((s.reg y).toNat % 32) ((s.reg x).toNat % 64) r c)) ∧
      (t.reg 0xF = 0 ∨ t.reg 0xF = 1) ∧
      (t.reg 0xF = 1 ↔ ∃ r c, r < 32 ∧ c < 64 ∧ s.pixel r c = true ∧
        s.spriteBit n.toNat ((s.reg y).toNat % 32) ((s.reg x).toNat % 64) r c = true) ∧
      RegsUnchangedExcept [0xF] s t ∧ t.pc = s.pc + 2 ∧ UnchangedExcept [.pc, .display, .regs] s t

/-- DRW whose range passes 0xFFF faults and nothing else changes, also where the rows beyond would be
clipped (44_display.md R212, R216; the spec's own decisions D7, D8, log entry 11). -/
def Obligations.DrwFaultsOnItsWholeRange : Prop :=
  ∀ (x y n : BitVec 4) (s : State), 1 ≤ n.toNat → s.I.toNat + n.toNat - 1 > 0xFFF →
    exec (.drw x y n) s =
      .next { s with fault := some ⟨.memoryAccessViolation, s.pc, 0xD#4 ++ x ++ y ++ n⟩ }

/-- Drawing the same sprite a second time at the same place restores the display; if the display was
dark before the first draw, the second reports a collision iff the sprite has a 1 bit on the screen
(44_display.md R215: "toggled-on-collision XOR semantics"; the coordinate registers are not `VF`, which
the first draw writes; right-hand clip and bit order are the spec's own decision D20, log entry 14). -/
def Obligations.DrawingTwiceRestoresTheDisplay : Prop :=
  ∀ (x y n : BitVec 4) (s t u : State), x ≠ 0xF → y ≠ 0xF →
    (n = 0 ∨ s.I.toNat + n.toNat - 1 ≤ 0xFFF) →
    exec (.drw x y n) s = .next t → exec (.drw x y n) t = .next u →
    u.disp = s.disp ∧
    ((∀ r c, s.pixel r c = false) →
      (u.reg 0xF = 1 ↔ ∃ r c, r < 32 ∧ c < 64 ∧
        s.spriteBit n.toNat ((s.reg y).toNat % 32) ((s.reg x).toNat % 64) r c = true))

/-! ## Keypad and timers -/

/-- SKP and SKNP (45_keypad_timers.md R230, R231, R236): skip iff the key in the low nibble of `Vx` is
held, or is not held, in this tick (that this tick's latch is tested is the spec's own decision D14,
log entry 13). The skip is that of 41_flow.md R149, to which R230 and R231 send the reader: its advance
before the skip and its end at 0x1002 are the spec's own decisions D2 and D4 (log entry 10). -/
def Obligations.KeySkipsTestThisTick : Prop :=
  ∀ (x : Reg) (s : State),
    (∃ t, exec (.skp x) s = .next t ∧
      t.pc = (if s.keysNow.getLsbD ((s.reg x).toNat % 16) = true then s.pc + 4 else s.pc + 2) ∧
      UnchangedExcept [.pc] s t) ∧
    (∃ t, exec (.sknp x) s = .next t ∧
      t.pc = (if s.keysNow.getLsbD ((s.reg x).toNat % 16) = false then s.pc + 4 else s.pc + 2) ∧
      UnchangedExcept [.pc] s t)

/-- LD Vx,K (45_keypad_timers.md R233): if `k` is the smallest key held in the previous tick and not
in this one, it is loaded and execution proceeds; if no key was released, the instruction leaves the
machine as it was, so it is fetched again (that the smallest is taken is the spec's own decision D13,
log entry 13). -/
def Obligations.KeyWaitTakesTheSmallestRelease : Prop :=
  ∀ (x : Reg) (s : State),
    (∀ k : Nat, k < 16 → s.keysPrev.getLsbD k = true → s.keysNow.getLsbD k = false →
      (∀ j, j < k → ¬(s.keysPrev.getLsbD j = true ∧ s.keysNow.getLsbD j = false)) →
      ∃ t, exec (.ldVxK x) s = .next t ∧ (t.reg x).toNat = k ∧ RegsUnchangedExcept [x] s t ∧
        t.pc = s.pc + 2 ∧ UnchangedExcept [.pc, .regs] s t) ∧
    ((∀ k, k < 16 → ¬(s.keysPrev.getLsbD k = true ∧ s.keysNow.getLsbD k = false)) →
      exec (.ldVxK x) s = .next s)

/-- A waiting LD Vx,K spins: while no key is released, any number of slots leaves the machine as it
was (45_keypad_timers.md R237 (a), (b); the spec marks it as derived). -/
def Obligations.KeyWaitSpinsThroughTheTick : Prop :=
  ∀ (n : Nat) (x : Reg) (op : Word) (s : State), s.halted = false → s.fetchWord = some op →
    decodeWord op = .ok (.ldVxK x) →
    (∀ k, k < 16 → ¬(s.keysPrev.getLsbD k = true ∧ s.keysNow.getLsbD k = false)) →
    runSlots n s = .next s

/-- LD Vx,DT, LD DT,Vx and LD ST,Vx (45_keypad_timers.md R232, R234, R235): each copies one byte; the
tone gate does not change. -/
def Obligations.TimerTransfersCopyOneByte : Prop :=
  ∀ (x : Reg) (s : State),
    (∃ t, exec (.ldVxDT x) s = .next t ∧ t.reg x = s.DT ∧ RegsUnchangedExcept [x] s t ∧
      t.pc = s.pc + 2 ∧ UnchangedExcept [.pc, .regs] s t) ∧
    (∃ t, exec (.ldDT x) s = .next t ∧ t.DT = s.reg x ∧ t.pc = s.pc + 2 ∧
      UnchangedExcept [.pc, .delay] s t) ∧
    (∃ t, exec (.ldST x) s = .next t ∧ t.ST = s.reg x ∧ t.pc = s.pc + 2 ∧
      UnchangedExcept [.pc, .sound] s t)

/-! ## The tick -/

/-- Once per tick, before its slots, each timer that is not zero goes down by one and a zero one stays;
the tone gate is 1 exactly if the sound timer was not zero before. Before a later slot of the tick
neither timer nor the gate changes, nor after any slot; and no instruction changes the gate, none but
LD DT the delay timer, none but LD ST the sound timer (60_exceptions.md R263, R264, R265; the place in
the tick is the model's framing, log entry 2). -/
def Obligations.TimersCountOncePerTick : Prop :=
  (∀ s : State, s.slot = 0 →
    s.beforeSlot.DT.toNat = s.DT.toNat - 1 ∧ s.beforeSlot.ST.toNat = s.ST.toNat - 1 ∧
    (s.beforeSlot.tone = true ↔ s.ST ≠ 0)) ∧
  (∀ s : State, s.slot ≠ 0 →
    s.beforeSlot.DT = s.DT ∧ s.beforeSlot.ST = s.ST ∧ s.beforeSlot.tone = s.tone) ∧
  (∀ s : State, s.afterSlot.DT = s.DT ∧ s.afterSlot.ST = s.ST ∧ s.afterSlot.tone = s.tone) ∧
  (∀ (i : Instr) (s t : State), exec i s = .next t →
    t.tone = s.tone ∧ ((∀ x, i ≠ .ldDT x) → t.DT = s.DT) ∧ ((∀ x, i ≠ .ldST x) → t.ST = s.ST))

/-- The gate after a whole tick is decided by the sound timer before it, whatever the tick's slots do
(60_exceptions.md R264). -/
def Obligations.ToneFollowsTheSoundTimer : Prop :=
  ∀ (keys : Keys) (s t : State), s.halted = false → tick keys s = .next t →
    (t.tone = true ↔ s.ST ≠ 0)

/-- Key latching (60_exceptions.md R262, R266, R268): a tick latches its levels; if it did not fault,
the next tick's previous levels are these; if it did, the previous levels are as before (the spec's
own decision D7, log entry 11). No instruction changes either latch. -/
def Obligations.KeysAreLatchedOncePerTick : Prop :=
  (∀ (keys : Keys) (s t : State), s.halted = false → tick keys s = .next t →
    t.keysNow = keys ∧ (t.halted = false → t.keysPrev = keys) ∧
    (t.halted = true → t.keysPrev = s.keysPrev)) ∧
  (∀ (i : Instr) (s t : State), exec i s = .next t →
    t.keysNow = s.keysNow ∧ t.keysPrev = s.keysPrev)

/-- Slot by slot or as one event, a tick is the same (60_exceptions.md R262, R265, R268; the slots are
the model's framing, log entry 2): from a state between ticks, `IPT` steps of the machine do exactly
what R262's `tick` does with the levels on the port, which are taken off it (`nextKeys` and
`consumeKeys` are the model's carrier of the free input `keys_in`, log entry 3). -/
def Obligations.StepsMakeUpTheTick : Prop :=
  ∀ s : State, s.halted = false → s.slot = 0 →
    runSteps s.cfg.ipt s = tick s.nextKeys s.consumeKeys

/-- A program that has reached a jump to itself is finished: a tick then only counts the timers down,
sets the gate and latches the keys (70_reset_and_hazards.md R311, the spec's own convention D24). -/
def Obligations.SelfJumpOnlyCountsAndLatches : Prop :=
  ∀ (keys : Keys) (nnn : Addr12) (op : Word) (s : State), s.halted = false →
    s.fetchWord = some op → decodeWord op = .ok (.jp nnn) → nnn.toNat = s.pc.toNat →
    tick keys s = .next { (s.latchKeys keys).timerPhase with keysPrev := keys }

/-! ## Reset -/

/-- The reset event leaves every piece of state at its reset value, whatever was before
(70_reset_and_hazards.md R290 to R293): the registers, the display, the latches, and memory byte by
byte, the ROM from 0x200 if it fits. The source states `pc`, `V`, `stack`, `DT`, `ST`, `disp`, the font
and the ROM; `I`, `tone`, the key latches, the other memory bytes and the empty fault latch are the
spec's own decision D15 (log entries 7 and 8), what a ROM that does not fit leaves is D18 (log entry
23); the place in the tick and the input carriers are the model's (log entry 19). -/
def Obligations.ResetLeavesTheResetState : Prop :=
  ∀ (c : Config) (rom : List Byte),
    let s := State.load c rom
    (∀ r, s.reg r = 0) ∧ s.I = 0x0000 ∧ s.pc = 0x0200 ∧ s.stack = [] ∧ s.DT = 0 ∧ s.ST = 0 ∧
    s.tone = false ∧ (∀ r : Fin 32, s.disp[r] = 0) ∧ s.keysNow = 0 ∧ s.keysPrev = 0 ∧ s.cfg = c ∧
    s.slot = 0 ∧ s.keysIn = [] ∧ s.rndIn = [] ∧ s.tickNo = 0 ∧ s.rndNo = 0 ∧
    (∀ j : Fin 80, s.readByte (0x050 + j.val) = c.font[j]) ∧
    (∀ a, a < 0x200 → ¬(0x050 ≤ a ∧ a < 0x0A0) → s.readByte a = 0x00) ∧
    s.fault =
      (if rom.length ≤ c.capacity then none else some ⟨.romTooLarge, 0x0200, 0x0000⟩) ∧
    (∀ a, 0x200 ≤ a → a ≤ 0xFFF →
      s.readByte a = if rom.length ≤ c.capacity then rom.getD (a - 0x200) 0x00 else 0x00)

/-- A ROM of any length from 0 to `CAP` is copied to 0x200 upward, byte by byte, nothing after its end;
the capacity is 3584 or, with the reserved region, 3232, so that the last loadable address is 0xFFF or
0xE9F; a ROM of length 0 leaves the program region zero and the first step faults with `UnknownOpcode`
on the word 0x0000 (70_reset_and_hazards.md R292; that the other bytes are 0x00 is the spec's own
decision D15, log entry 7). -/
def Obligations.RomIsCopiedTo0x200 : Prop :=
  (∀ (c : Config) (rom : List Byte), rom.length ≤ c.capacity →
    let s := State.load c rom
    s.fault = none ∧
    (∀ j, (h : j < rom.length) → s.readByte (0x200 + j) = rom[j]) ∧
    (∀ a, 0x200 + rom.length ≤ a → s.readByte a = 0x00) ∧
    (rom = [] → ∃ t, instructionStep s = .next t ∧
      t.fault = some ⟨.unknownOpcode, 0x0200, 0x0000⟩)) ∧
  (∀ c : Config,
    (c.reservedTop = .none → c.capacity = 3584 ∧ 0x200 + c.capacity - 1 = 0xFFF) ∧
    (c.reservedTop = .bytes352 → c.capacity = 3232 ∧ 0x200 + c.capacity - 1 = 0xE9F))

/-- A ROM longer than `CAP` is rejected (70_reset_and_hazards.md R293, 60_exceptions.md R255; that it
is rejected and not truncated is the spec's own decision D18, log entry 23): no byte of it is copied
and the machine is halted with `RomTooLarge`. -/
def Obligations.OversizedRomIsRejected : Prop :=
  ∀ (c : Config) (rom : List Byte), c.capacity < rom.length →
    (State.load c rom).fault = some ⟨.romTooLarge, 0x0200, 0x0000⟩ ∧
    (∀ a, 0x200 ≤ a → (State.load c rom).readByte a = 0x00) ∧
    step (State.load c rom) = .next (State.load c rom)

/-! ## Whole-machine rules -/

/-- Every instruction writes only the pieces of state, and only the general registers, that the column
"written by" of 10_state.md section 1 and the `VF` table of R22 give it. -/
def Obligations.InstructionsWriteOnlyTheirParts : Prop :=
  ∀ (i : Instr) (s t : State), exec i s = .next t →
    UnchangedExcept (writtenParts i) s t ∧ RegsUnchangedExcept (writtenRegs i) s t

/-- Exactly the five instructions that can fault do so, exactly under their condition, and precisely:
the latch takes the kind, `pc0` and the word, nothing else changes; in every other state the
instruction completes with the latch untouched (40_cycle.md R125, 60_exceptions.md R253, R254, R256,
R258; precision and the whole-range check are the spec's own decisions D7 and D8, log entry 11). -/
def Obligations.FaultsArePreciseAndOnlyWhereNamed : Prop :=
  ∀ (i : Instr) (s : State),
    (∀ k, faultOf i s = some k → exec i s = .next { s with fault := some ⟨k, s.pc, encode i⟩ }) ∧
    (faultOf i s = none → ∃ t, exec i s = .next t ∧ t.fault = s.fault)

/-- No step and no tick stops the model: each answers a next state (40_cycle.md R126; a fault is a
state, log entry 1). -/
def Obligations.EveryStepAnswersANextState : Prop :=
  ∀ (keys : Keys) (s : State), (∃ t, step s = .next t) ∧ (∃ t, tick keys s = .next t)

/-- The parameters are constants of the run: no step and no tick changes them (70_reset_and_hazards.md
R290). -/
def Obligations.ParametersAreConstant : Prop :=
  ∀ (keys : Keys) (s t : State),
    (step s = .next t → t.cfg = s.cfg) ∧ (tick keys s = .next t → t.cfg = s.cfg)

/-- The fault latch is cleared by no step (60_exceptions.md R257; the spec's own decision D7, log entry
11): once set, it keeps its record. -/
def Obligations.OnlyResetClearsTheLatch : Prop :=
  ∀ (k : Nat) (s t : State) (f : FaultRecord), s.fault = some f →
    runSteps k s = .next t → t.fault = some f

/-- The invariant at reset, for every configuration and ROM (the canonical form of memory and the
place in the tick are the model's, log entries 2 and 7). -/
def Obligations.ResetMeetsTheInvariant : Prop :=
  State.reset.Inv ∧ ∀ (c : Config) (rom : List Byte), (State.load c rom).Inv

/-- Every step keeps the invariant: `pc` stays at most 0x10FE (10_state.md R25), every stack entry in
0x0002 to 0x1000 (R26). The other two parts are the model's: memory stays in its canonical form (log
entry 7), and the place in the tick stays one of the `IPT` slots that 60_exceptions.md R265 gives a tick
(log entry 2). -/
def Obligations.StepsKeepTheInvariant : Prop :=
  ∀ s t : State, s.Inv → step s = .next t → t.Inv
end

