-- ==== Sys2Proof/Laws/State.lean ====
section
/-! SUPPORT. What each update of the state leaves alone and what it sets, one lemma per field per
update, so that no proof unfolds a record update. The other register and pc operations are first
rewritten to these. -/

namespace Sys2Proof.Machine

/-! ## The composite operations in terms of `setReg` and `setPc` -/

@[simp] theorem State.setVF_eq (s : State) (v : Byte) : s.setVF v = s.setReg regF v := rfl

@[simp] theorem State.setResultThenFlag_eq (s : State) (x : Reg) (r f : Byte) :
    s.setResultThenFlag x r f = (s.setReg x r).setReg regF f := rfl

@[simp] theorem State.applyLogicQuirk_eq (s : State) :
    s.applyLogicQuirk = s.setReg regF (if s.cfg.logicClearsVF then 0 else s.reg regF) := rfl

@[simp] theorem State.advance_eq (s : State) : s.advance = s.setPc (s.pc + 2) := rfl

@[simp] theorem State.advanceSkippingIf_eq (s : State) (c : Bool) :
    s.advanceSkippingIf c = s.setPc (if c then s.pc + 4 else s.pc + 2) := by
  cases c with
  | false => rfl
  | true => simp [State.advanceSkippingIf, State.setPc, BitVec.add_assoc]

/-! ## `setReg` -/

@[simp] theorem State.setReg_mem (s : State) (x : Reg) (v : Byte) : (s.setReg x v).mem = s.mem := rfl
@[simp] theorem State.setReg_I (s : State) (x : Reg) (v : Byte) : (s.setReg x v).I = s.I := rfl
@[simp] theorem State.setReg_pc (s : State) (x : Reg) (v : Byte) : (s.setReg x v).pc = s.pc := rfl
@[simp] theorem State.setReg_stack (s : State) (x : Reg) (v : Byte) : (s.setReg x v).stack = s.stack := rfl
@[simp] theorem State.setReg_DT (s : State) (x : Reg) (v : Byte) : (s.setReg x v).DT = s.DT := rfl
@[simp] theorem State.setReg_ST (s : State) (x : Reg) (v : Byte) : (s.setReg x v).ST = s.ST := rfl
@[simp] theorem State.setReg_disp (s : State) (x : Reg) (v : Byte) : (s.setReg x v).disp = s.disp := rfl
@[simp] theorem State.setReg_tone (s : State) (x : Reg) (v : Byte) : (s.setReg x v).tone = s.tone := rfl
@[simp] theorem State.setReg_keysNow (s : State) (x : Reg) (v : Byte) : (s.setReg x v).keysNow = s.keysNow := rfl
@[simp] theorem State.setReg_keysPrev (s : State) (x : Reg) (v : Byte) : (s.setReg x v).keysPrev = s.keysPrev := rfl
@[simp] theorem State.setReg_fault (s : State) (x : Reg) (v : Byte) : (s.setReg x v).fault = s.fault := rfl
@[simp] theorem State.setReg_cfg (s : State) (x : Reg) (v : Byte) : (s.setReg x v).cfg = s.cfg := rfl
@[simp] theorem State.setReg_slot (s : State) (x : Reg) (v : Byte) : (s.setReg x v).slot = s.slot := rfl
@[simp] theorem State.setReg_keysIn (s : State) (x : Reg) (v : Byte) : (s.setReg x v).keysIn = s.keysIn := rfl
@[simp] theorem State.setReg_rndIn (s : State) (x : Reg) (v : Byte) : (s.setReg x v).rndIn = s.rndIn := rfl
@[simp] theorem State.setReg_tickNo (s : State) (x : Reg) (v : Byte) : (s.setReg x v).tickNo = s.tickNo := rfl
@[simp] theorem State.setReg_rndNo (s : State) (x : Reg) (v : Byte) : (s.setReg x v).rndNo = s.rndNo := rfl

/-! ## `setI` -/

@[simp] theorem State.setI_mem (s : State) (v : Word) : (s.setI v).mem = s.mem := rfl
@[simp] theorem State.setI_V (s : State) (v : Word) : (s.setI v).V = s.V := rfl
@[simp] theorem State.setI_pc (s : State) (v : Word) : (s.setI v).pc = s.pc := rfl
@[simp] theorem State.setI_stack (s : State) (v : Word) : (s.setI v).stack = s.stack := rfl
@[simp] theorem State.setI_DT (s : State) (v : Word) : (s.setI v).DT = s.DT := rfl
@[simp] theorem State.setI_ST (s : State) (v : Word) : (s.setI v).ST = s.ST := rfl
@[simp] theorem State.setI_disp (s : State) (v : Word) : (s.setI v).disp = s.disp := rfl
@[simp] theorem State.setI_tone (s : State) (v : Word) : (s.setI v).tone = s.tone := rfl
@[simp] theorem State.setI_keysNow (s : State) (v : Word) : (s.setI v).keysNow = s.keysNow := rfl
@[simp] theorem State.setI_keysPrev (s : State) (v : Word) : (s.setI v).keysPrev = s.keysPrev := rfl
@[simp] theorem State.setI_fault (s : State) (v : Word) : (s.setI v).fault = s.fault := rfl
@[simp] theorem State.setI_cfg (s : State) (v : Word) : (s.setI v).cfg = s.cfg := rfl
@[simp] theorem State.setI_slot (s : State) (v : Word) : (s.setI v).slot = s.slot := rfl
@[simp] theorem State.setI_keysIn (s : State) (v : Word) : (s.setI v).keysIn = s.keysIn := rfl
@[simp] theorem State.setI_rndIn (s : State) (v : Word) : (s.setI v).rndIn = s.rndIn := rfl
@[simp] theorem State.setI_tickNo (s : State) (v : Word) : (s.setI v).tickNo = s.tickNo := rfl
@[simp] theorem State.setI_rndNo (s : State) (v : Word) : (s.setI v).rndNo = s.rndNo := rfl

/-! ## `setPc` -/

@[simp] theorem State.setPc_mem (s : State) (p : Word) : (s.setPc p).mem = s.mem := rfl
@[simp] theorem State.setPc_V (s : State) (p : Word) : (s.setPc p).V = s.V := rfl
@[simp] theorem State.setPc_I (s : State) (p : Word) : (s.setPc p).I = s.I := rfl
@[simp] theorem State.setPc_stack (s : State) (p : Word) : (s.setPc p).stack = s.stack := rfl
@[simp] theorem State.setPc_DT (s : State) (p : Word) : (s.setPc p).DT = s.DT := rfl
@[simp] theorem State.setPc_ST (s : State) (p : Word) : (s.setPc p).ST = s.ST := rfl
@[simp] theorem State.setPc_disp (s : State) (p : Word) : (s.setPc p).disp = s.disp := rfl
@[simp] theorem State.setPc_tone (s : State) (p : Word) : (s.setPc p).tone = s.tone := rfl
@[simp] theorem State.setPc_keysNow (s : State) (p : Word) : (s.setPc p).keysNow = s.keysNow := rfl
@[simp] theorem State.setPc_keysPrev (s : State) (p : Word) : (s.setPc p).keysPrev = s.keysPrev := rfl
@[simp] theorem State.setPc_fault (s : State) (p : Word) : (s.setPc p).fault = s.fault := rfl
@[simp] theorem State.setPc_cfg (s : State) (p : Word) : (s.setPc p).cfg = s.cfg := rfl
@[simp] theorem State.setPc_slot (s : State) (p : Word) : (s.setPc p).slot = s.slot := rfl
@[simp] theorem State.setPc_keysIn (s : State) (p : Word) : (s.setPc p).keysIn = s.keysIn := rfl
@[simp] theorem State.setPc_rndIn (s : State) (p : Word) : (s.setPc p).rndIn = s.rndIn := rfl
@[simp] theorem State.setPc_tickNo (s : State) (p : Word) : (s.setPc p).tickNo = s.tickNo := rfl
@[simp] theorem State.setPc_rndNo (s : State) (p : Word) : (s.setPc p).rndNo = s.rndNo := rfl

/-! ## `push` -/

@[simp] theorem State.push_mem (s : State) (v : Word) : (s.push v).mem = s.mem := rfl
@[simp] theorem State.push_V (s : State) (v : Word) : (s.push v).V = s.V := rfl
@[simp] theorem State.push_I (s : State) (v : Word) : (s.push v).I = s.I := rfl
@[simp] theorem State.push_pc (s : State) (v : Word) : (s.push v).pc = s.pc := rfl
@[simp] theorem State.push_DT (s : State) (v : Word) : (s.push v).DT = s.DT := rfl
@[simp] theorem State.push_ST (s : State) (v : Word) : (s.push v).ST = s.ST := rfl
@[simp] theorem State.push_disp (s : State) (v : Word) : (s.push v).disp = s.disp := rfl
@[simp] theorem State.push_tone (s : State) (v : Word) : (s.push v).tone = s.tone := rfl
@[simp] theorem State.push_keysNow (s : State) (v : Word) : (s.push v).keysNow = s.keysNow := rfl
@[simp] theorem State.push_keysPrev (s : State) (v : Word) : (s.push v).keysPrev = s.keysPrev := rfl
@[simp] theorem State.push_fault (s : State) (v : Word) : (s.push v).fault = s.fault := rfl
@[simp] theorem State.push_cfg (s : State) (v : Word) : (s.push v).cfg = s.cfg := rfl
@[simp] theorem State.push_slot (s : State) (v : Word) : (s.push v).slot = s.slot := rfl
@[simp] theorem State.push_keysIn (s : State) (v : Word) : (s.push v).keysIn = s.keysIn := rfl
@[simp] theorem State.push_rndIn (s : State) (v : Word) : (s.push v).rndIn = s.rndIn := rfl
@[simp] theorem State.push_tickNo (s : State) (v : Word) : (s.push v).tickNo = s.tickNo := rfl
@[simp] theorem State.push_rndNo (s : State) (v : Word) : (s.push v).rndNo = s.rndNo := rfl

/-! ## `raise` -/

@[simp] theorem State.raise_mem (s : State) (k : Fault) (op : Word) : (s.raise k op).mem = s.mem := rfl
@[simp] theorem State.raise_V (s : State) (k : Fault) (op : Word) : (s.raise k op).V = s.V := rfl
@[simp] theorem State.raise_I (s : State) (k : Fault) (op : Word) : (s.raise k op).I = s.I := rfl
@[simp] theorem State.raise_pc (s : State) (k : Fault) (op : Word) : (s.raise k op).pc = s.pc := rfl
@[simp] theorem State.raise_stack (s : State) (k : Fault) (op : Word) : (s.raise k op).stack = s.stack := rfl
@[simp] theorem State.raise_DT (s : State) (k : Fault) (op : Word) : (s.raise k op).DT = s.DT := rfl
@[simp] theorem State.raise_ST (s : State) (k : Fault) (op : Word) : (s.raise k op).ST = s.ST := rfl
@[simp] theorem State.raise_disp (s : State) (k : Fault) (op : Word) : (s.raise k op).disp = s.disp := rfl
@[simp] theorem State.raise_tone (s : State) (k : Fault) (op : Word) : (s.raise k op).tone = s.tone := rfl
@[simp] theorem State.raise_keysNow (s : State) (k : Fault) (op : Word) : (s.raise k op).keysNow = s.keysNow := rfl
@[simp] theorem State.raise_keysPrev (s : State) (k : Fault) (op : Word) : (s.raise k op).keysPrev = s.keysPrev := rfl
@[simp] theorem State.raise_cfg (s : State) (k : Fault) (op : Word) : (s.raise k op).cfg = s.cfg := rfl
@[simp] theorem State.raise_slot (s : State) (k : Fault) (op : Word) : (s.raise k op).slot = s.slot := rfl
@[simp] theorem State.raise_keysIn (s : State) (k : Fault) (op : Word) : (s.raise k op).keysIn = s.keysIn := rfl
@[simp] theorem State.raise_rndIn (s : State) (k : Fault) (op : Word) : (s.raise k op).rndIn = s.rndIn := rfl
@[simp] theorem State.raise_tickNo (s : State) (k : Fault) (op : Word) : (s.raise k op).tickNo = s.tickNo := rfl
@[simp] theorem State.raise_rndNo (s : State) (k : Fault) (op : Word) : (s.raise k op).rndNo = s.rndNo := rfl

/-! ## `consumeRnd` -/

@[simp] theorem State.consumeRnd_mem (s : State) : s.consumeRnd.mem = s.mem := rfl
@[simp] theorem State.consumeRnd_V (s : State) : s.consumeRnd.V = s.V := rfl
@[simp] theorem State.consumeRnd_I (s : State) : s.consumeRnd.I = s.I := rfl
@[simp] theorem State.consumeRnd_pc (s : State) : s.consumeRnd.pc = s.pc := rfl
@[simp] theorem State.consumeRnd_stack (s : State) : s.consumeRnd.stack = s.stack := rfl
@[simp] theorem State.consumeRnd_DT (s : State) : s.consumeRnd.DT = s.DT := rfl
@[simp] theorem State.consumeRnd_ST (s : State) : s.consumeRnd.ST = s.ST := rfl
@[simp] theorem State.consumeRnd_disp (s : State) : s.consumeRnd.disp = s.disp := rfl
@[simp] theorem State.consumeRnd_tone (s : State) : s.consumeRnd.tone = s.tone := rfl
@[simp] theorem State.consumeRnd_keysNow (s : State) : s.consumeRnd.keysNow = s.keysNow := rfl
@[simp] theorem State.consumeRnd_keysPrev (s : State) : s.consumeRnd.keysPrev = s.keysPrev := rfl
@[simp] theorem State.consumeRnd_fault (s : State) : s.consumeRnd.fault = s.fault := rfl
@[simp] theorem State.consumeRnd_cfg (s : State) : s.consumeRnd.cfg = s.cfg := rfl
@[simp] theorem State.consumeRnd_slot (s : State) : s.consumeRnd.slot = s.slot := rfl
@[simp] theorem State.consumeRnd_keysIn (s : State) : s.consumeRnd.keysIn = s.keysIn := rfl
@[simp] theorem State.consumeRnd_tickNo (s : State) : s.consumeRnd.tickNo = s.tickNo := rfl

/-! ## What the updates set -/

@[simp] theorem State.setI_I (s : State) (v : Word) : (s.setI v).I = v := rfl
@[simp] theorem State.setPc_pc (s : State) (p : Word) : (s.setPc p).pc = p := rfl
@[simp] theorem State.push_stack (s : State) (v : Word) : (s.push v).stack = v :: s.stack := rfl
@[simp] theorem State.raise_fault (s : State) (k : Fault) (op : Word) :
    (s.raise k op).fault = some ⟨k, s.pc, op⟩ := rfl
@[simp] theorem State.consumeRnd_rndIn (s : State) : s.consumeRnd.rndIn = s.rndIn.tail := rfl
@[simp] theorem State.consumeRnd_rndNo (s : State) : s.consumeRnd.rndNo = s.rndNo + 1 := rfl

/-! ## Registers and memory through their accessors -/

/-- A register read after a register write. -/
theorem State.setReg_reg (s : State) (x : Reg) (v : Byte) (r : Reg) :
    (s.setReg x v).reg r = if r = x then v else s.reg r := by
  simp only [State.reg, State.setReg, Vector.getElem_set]
  by_cases h : x.toNat = r.toNat
  · rw [if_pos h, if_pos (BitVec.eq_of_toNat_eq h.symm)]
  · rw [if_neg h, if_neg (fun e => h (by rw [e]))]

@[simp] theorem State.setReg_reg_same (s : State) (x : Reg) (v : Byte) :
    (s.setReg x v).reg x = v := by rw [State.setReg_reg, if_pos rfl]

theorem State.setReg_reg_of_ne (s : State) (x : Reg) (v : Byte) (r : Reg) (h : r ≠ x) :
    (s.setReg x v).reg r = s.reg r := by rw [State.setReg_reg, if_neg h]

@[simp] theorem State.setReg_readByte (s : State) (x : Reg) (v : Byte) (a : Nat) :
    (s.setReg x v).readByte a = s.readByte a := rfl
@[simp] theorem State.setI_reg (s : State) (v : Word) (r : Reg) : (s.setI v).reg r = s.reg r := rfl
@[simp] theorem State.setI_readByte (s : State) (v : Word) (a : Nat) :
    (s.setI v).readByte a = s.readByte a := rfl
@[simp] theorem State.setPc_reg (s : State) (p : Word) (r : Reg) : (s.setPc p).reg r = s.reg r := rfl
@[simp] theorem State.setPc_readByte (s : State) (p : Word) (a : Nat) :
    (s.setPc p).readByte a = s.readByte a := rfl
@[simp] theorem State.push_reg (s : State) (v : Word) (r : Reg) : (s.push v).reg r = s.reg r := rfl
@[simp] theorem State.push_readByte (s : State) (v : Word) (a : Nat) :
    (s.push v).readByte a = s.readByte a := rfl
@[simp] theorem State.raise_reg (s : State) (k : Fault) (op : Word) (r : Reg) : (s.raise k op).reg r = s.reg r := rfl
@[simp] theorem State.raise_readByte (s : State) (k : Fault) (op : Word) (a : Nat) :
    (s.raise k op).readByte a = s.readByte a := rfl
@[simp] theorem State.consumeRnd_reg (s : State) (r : Reg) : s.consumeRnd.reg r = s.reg r := rfl
@[simp] theorem State.consumeRnd_readByte (s : State) (a : Nat) :
    s.consumeRnd.readByte a = s.readByte a := rfl

end Sys2Proof.Machine
end

