-- ==== Sys2Proof/Laws/Memory.lean ====
section
/-! SUPPORT. Memory: every operation keeps the canonical form, a read after a write gives the byte
written and leaves every other address alone (spec/20_memory.md R68), and two canonical memories that
read alike are equal. -/

namespace Sys2Proof.Machine

/-! ## The canonical form -/

theorem Memory.wfFrom_cons (c : Config) (lo a : Nat) (v : Byte) (m : Memory) :
    Memory.wfFrom c lo ((a, v) :: m) = true ↔
      lo ≤ a ∧ a < 4096 ∧ v ≠ c.initialByte a ∧ Memory.wfFrom c (a + 1) m = true := by
  simp [Memory.wfFrom, addressExists, and_assoc]

theorem Memory.wfFrom_mono (c : Config) {lo lo' : Nat} {m : Memory} (h : lo' ≤ lo)
    (w : Memory.wfFrom c lo m = true) : Memory.wfFrom c lo' m = true := by
  cases m with
  | nil => rfl
  | cons p m =>
    obtain ⟨a, v⟩ := p
    rw [Memory.wfFrom_cons] at w ⊢
    exact ⟨by omega, w.2⟩

/-- Below its first address a canonical memory reads as the reset contents. -/
theorem Memory.read_below (c : Config) {lo a : Nat} {m : Memory} (w : Memory.wfFrom c lo m = true)
    (h : a < lo) : Memory.read c m a = c.initialByte a := by
  induction m generalizing lo with
  | nil => rfl
  | cons p m ih =>
    obtain ⟨b, v⟩ := p
    rw [Memory.wfFrom_cons] at w
    rw [Memory.read, if_neg (by omega)]
    exact ih w.2.2.2 (by omega)

theorem Memory.insert_wfFrom (c : Config) {lo a : Nat} {m : Memory} (v : Byte)
    (w : Memory.wfFrom c lo m = true) (h : lo ≤ a) (ha : a < 4096) :
    Memory.wfFrom c lo (Memory.insert c m a v) = true := by
  induction m generalizing lo with
  | nil =>
    rw [Memory.insert]
    split
    · rfl
    · rw [Memory.wfFrom_cons]; exact ⟨h, ha, ‹_›, rfl⟩
  | cons p m ih =>
    obtain ⟨b, u⟩ := p
    have w' := w
    rw [Memory.wfFrom_cons] at w'
    obtain ⟨h1, h2, h3, h4⟩ := w'
    rw [Memory.insert]
    split
    · split
      · exact w
      · rw [Memory.wfFrom_cons, Memory.wfFrom_cons]
        exact ⟨h, ha, ‹_›, by omega, h2, h3, h4⟩
    · split
      · split
        · exact Memory.wfFrom_mono c (by omega) h4
        · subst b
          rw [Memory.wfFrom_cons]
          exact ⟨h, ha, ‹_›, h4⟩
      · rw [Memory.wfFrom_cons]
        exact ⟨h1, h2, h3, ih h4 (by omega)⟩

theorem Memory.write_wf (c : Config) {m : Memory} (a : Nat) (v : Byte)
    (w : Memory.wf c m = true) : Memory.wf c (Memory.write c m a v) = true := by
  rw [Memory.write]
  split
  · rename_i h
    exact Memory.insert_wfFrom c v w (Nat.zero_le a) (by simpa [addressExists] using h)
  · exact w

theorem Memory.writeList_wf (c : Config) {m : Memory} (a : Nat) (bs : List Byte)
    (w : Memory.wf c m = true) : Memory.wf c (Memory.writeList c m a bs) = true := by
  induction bs generalizing a with
  | nil => exact w
  | cons b bs ih => exact Memory.write_wf c a b (ih (a + 1))

/-! ## Read after write -/

theorem Memory.read_insert (c : Config) {lo a : Nat} {m : Memory} (v : Byte)
    (w : Memory.wfFrom c lo m = true) (b : Nat) :
    Memory.read c (Memory.insert c m a v) b = if b = a then v else Memory.read c m b := by
  induction m generalizing lo with
  | nil =>
    simp only [Memory.insert]
    split
    · by_cases h : b = a <;> simp_all [Memory.read]
    · simp [Memory.read]
  | cons p m ih =>
    obtain ⟨d, u⟩ := p
    rw [Memory.wfFrom_cons] at w
    obtain ⟨h1, h2, h3, h4⟩ := w
    simp only [Memory.insert]
    split
    · split
      · by_cases h : b = a
        · subst b
          rw [if_pos rfl, Memory.read, if_neg (by omega), Memory.read_below c h4 (by omega)]
          exact Eq.symm ‹_›
        · rw [if_neg h]
      · rw [Memory.read]
    · split
      · split
        · by_cases h : b = a
          · subst b
            rw [if_pos rfl, Memory.read_below c h4 (by omega)]
            exact Eq.symm ‹_›
          · rw [if_neg h, Memory.read, if_neg (by omega)]
        · subst d
          by_cases h : b = a
          · rw [if_pos h, Memory.read, if_pos h]
          · rw [if_neg h, Memory.read, if_neg h, Memory.read, if_neg h]
      · rw [Memory.read, ih h4]
        by_cases h : b = d
        · rw [if_pos h, if_neg (by omega), Memory.read, if_pos h]
        · rw [if_neg h, Memory.read, if_neg h]

/-- A one-byte write sets the byte at its address and no other (R68). -/
theorem Memory.read_write (c : Config) {m : Memory} (a : Nat) (v : Byte)
    (w : Memory.wf c m = true) (ha : a < 4096) (b : Nat) :
    Memory.read c (Memory.write c m a v) b = if b = a then v else Memory.read c m b := by
  rw [Memory.write, if_pos (by simpa [addressExists] using ha)]
  exact Memory.read_insert c v w b

/-- A write of consecutive bytes sets byte `k` at `a + k` and leaves every other address alone. -/
theorem Memory.read_writeList (c : Config) {m : Memory} (a : Nat) (bs : List Byte)
    (w : Memory.wf c m = true) (ha : a + bs.length ≤ 4096) (b : Nat) :
    Memory.read c (Memory.writeList c m a bs) b =
      if h : a ≤ b ∧ b < a + bs.length then bs[b - a]'(by omega) else Memory.read c m b := by
  induction bs generalizing a with
  | nil => rw [dif_neg (by simp)]; rfl
  | cons v bs ih =>
    simp only [List.length_cons] at ha ⊢
    rw [Memory.writeList, Memory.read_write c a v (Memory.writeList_wf c _ bs w) (by omega)]
    by_cases h : b = a
    · subst b
      rw [if_pos rfl, dif_pos ⟨le_refl _, by omega⟩]
      simp
    · rw [if_neg h, ih (a + 1) (by omega)]
      by_cases h2 : a ≤ b ∧ b < a + (bs.length + 1)
      · rw [dif_pos ⟨by omega, by omega⟩, dif_pos h2]
        simp [show b - a = (b - (a + 1)) + 1 by omega]
      · rw [dif_neg (by omega), dif_neg h2]

/-! ## Equal memories are equal data -/

theorem Memory.ext_from (c : Config) {lo : Nat} {m m' : Memory} (w : Memory.wfFrom c lo m = true)
    (w' : Memory.wfFrom c lo m' = true) (h : ∀ a, Memory.read c m a = Memory.read c m' a) :
    m = m' := by
  induction m generalizing lo m' with
  | nil =>
    cases m' with
    | nil => rfl
    | cons p m' =>
      obtain ⟨b, v⟩ := p
      rw [Memory.wfFrom_cons] at w'
      have := h b
      rw [Memory.read, Memory.read, if_pos rfl] at this
      exact absurd this.symm w'.2.2.1
  | cons p m ih =>
    obtain ⟨a, v⟩ := p
    have wa := w
    rw [Memory.wfFrom_cons] at wa
    have ha := h a
    rw [Memory.read, if_pos rfl] at ha
    cases m' with
    | nil => exact absurd ha wa.2.2.1
    | cons q m' =>
      obtain ⟨b, u⟩ := q
      rw [Memory.wfFrom_cons] at w'
      have hb := h b
      rw [Memory.read.eq_def c ((b, u) :: m')] at hb
      simp only [if_pos] at hb
      have hab : a = b := by
        by_contra hne
        rcases Nat.lt_or_gt_of_ne hne with hlt | hgt
        · rw [Memory.read, if_neg (by omega), Memory.read_below c w'.2.2.2 (by omega)] at ha
          exact wa.2.2.1 ha
        · rw [Memory.read, if_neg (by omega), Memory.read_below c wa.2.2.2 (by omega)] at hb
          exact w'.2.2.1 hb.symm
      subst b
      rw [Memory.read, if_pos rfl] at hb
      have : m = m' := by
        refine ih wa.2.2.2 w'.2.2.2 fun d => ?_
        by_cases hd : d < a + 1
        · rw [Memory.read_below c wa.2.2.2 hd, Memory.read_below c w'.2.2.2 hd]
        · have := h d
          rwa [Memory.read, if_neg (by omega), Memory.read, if_neg (by omega)] at this
      rw [this, hb]

/-- Two canonical memories that read alike everywhere are the same list. -/
theorem Memory.ext_of_wf (c : Config) {m m' : Memory} (w : Memory.wf c m = true)
    (w' : Memory.wf c m' = true) (h : ∀ a, Memory.read c m a = Memory.read c m' a) : m = m' :=
  Memory.ext_from c w w' h

/-! ## The primitives on the state (R15, R65, R66) -/

/-- The bounds check: of `n >= 1` bytes, the last address is at most 0xFFF. -/
theorem rangeExists_iff (a n : Nat) : rangeExists a n = true ↔ n = 0 ∨ a + n - 1 ≤ 0xFFF := by
  simp [rangeExists, addressExists]; omega

theorem rangeExists_pos (a n : Nat) (h : 1 ≤ n) : rangeExists a n = true ↔ a + n ≤ 4096 := by
  rw [rangeExists_iff]; omega

/-- A read that passes its check gives the `n` bytes, lowest address first. -/
theorem State.memRead_of_exists (s : State) (a n : Nat) (h : rangeExists a n = true) :
    s.memRead a n = some ((List.range n).map fun k => s.readByte (a + k)) := by
  rw [State.memRead, if_pos h]

theorem State.memRead_of_not (s : State) (a n : Nat) (h : ¬ rangeExists a n = true) :
    s.memRead a n = none := by
  rw [State.memRead, if_neg h]

/-- What a write that passes its check does. -/
theorem State.memWrite_of_exists (s : State) (a : Nat) (bs : List Byte)
    (h : rangeExists a bs.length = true) :
    s.memWrite a bs = some { s with mem := Memory.writeList s.cfg s.mem a bs } := by
  rw [State.memWrite, if_pos h]

theorem State.memWrite_of_not (s : State) (a : Nat) (bs : List Byte)
    (h : ¬ rangeExists a bs.length = true) : s.memWrite a bs = none := by
  rw [State.memWrite, if_neg h]

/-- Everything a write can do: it is made, and memory alone changes, or it is not made. -/
theorem State.memWrite_cases (s : State) (a : Nat) (bs : List Byte) :
    (rangeExists a bs.length = true ∧
      s.memWrite a bs = some { s with mem := Memory.writeList s.cfg s.mem a bs }) ∨
    (rangeExists a bs.length = false ∧ s.memWrite a bs = none) := by
  by_cases h : rangeExists a bs.length = true
  · exact .inl ⟨h, s.memWrite_of_exists a bs h⟩
  · exact .inr ⟨by simpa using h, s.memWrite_of_not a bs h⟩

/-- The bytes read after a write, in a state whose memory is canonical. -/
theorem State.readByte_writeList (s : State) (a : Nat) (bs : List Byte) (w : s.memOk)
    (h : a + bs.length ≤ 4096) (b : Nat) :
    State.readByte { s with mem := Memory.writeList s.cfg s.mem a bs } b =
      if h : a ≤ b ∧ b < a + bs.length then bs[b - a]'(by omega) else s.readByte b :=
  Memory.read_writeList s.cfg a bs w h b

/-- The same, as `storedOver` says it. -/
theorem State.readByte_storedOver (s : State) (a : Nat) (bs : List Byte) (w : s.memOk)
    (h : a + bs.length ≤ 4096) (b : Nat) :
    State.readByte { s with mem := Memory.writeList s.cfg s.mem a bs } b =
      storedOver s.readByte a bs b :=
  s.readByte_writeList a bs w h b

end Sys2Proof.Machine
end

