-- ==== Sys2Proof/Laws/Ops.lean ====
section
/-! SUPPORT. What the shared operations over registers, keys, digits and the fetch can do, one lemma
each, cited instead of unfolding them. -/

namespace Sys2Proof.Machine

/-! ## Fetch (R62, R65, R121) -/

/-- The fetch gives the big-endian word at `pc` if both bytes exist, and nothing otherwise. -/
theorem State.fetchWord_eq (s : State) : s.fetchWord =
    if s.pc.toNat + 1 ≤ 0xFFF then
      some (wordOfBytes (s.readByte s.pc.toNat) (s.readByte (s.pc.toNat + 1)))
    else none := by
  unfold State.fetchWord
  by_cases h : s.pc.toNat + 1 ≤ 0xFFF
  · rw [if_pos h, s.memRead_of_exists _ _ ((rangeExists_iff _ _).2 (by omega))]
    rfl
  · rw [if_neg h, s.memRead_of_not _ _ (by rw [rangeExists_iff]; omega)]

/-! ## Register transfers (R194, R195) -/

@[simp] theorem State.loadRegs_I (s : State) (n : Nat) : (s.loadRegs n).I = s.I := by
  induction n with
  | zero => rfl
  | succ k ih => simpa [State.loadRegs] using ih

/-- Loading registers touches the register file alone. -/
theorem State.loadRegs_eq (s : State) (n : Nat) : s.loadRegs n = { s with V := (s.loadRegs n).V } := by
  induction n with
  | zero => rfl
  | succ k ih => rw [State.loadRegs, State.setReg, ih]

/-- `V[k]` holds the byte at `I + k` for `k < n`; the other registers are as before. -/
theorem State.loadRegs_reg (s : State) (n : Nat) (h : n ≤ 16) (r : Reg) :
    (s.loadRegs n).reg r = if r.toNat < n then s.readByte (s.I.toNat + r.toNat) else s.reg r := by
  induction n with
  | zero => simp [State.loadRegs]
  | succ k ih =>
    rw [State.loadRegs, State.setReg_reg, ih (by omega)]
    have hk : (BitVec.ofNat 4 k).toNat = k := by
      rw [BitVec.toNat_ofNat]; exact Nat.mod_eq_of_lt (by omega)
    by_cases e : r = BitVec.ofNat 4 k
    · rw [if_pos e, if_pos (by rw [e, hk]; omega), e, hk]
    · have : r.toNat ≠ k := fun e' => e (BitVec.eq_of_toNat_eq (by rw [hk, e']))
      rw [if_neg e]
      by_cases h2 : r.toNat < k
      · rw [if_pos h2, if_pos (by omega)]
      · rw [if_neg h2, if_neg (by omega)]

@[simp] theorem State.regsBelow_length (s : State) (n : Nat) : (s.regsBelow n).length = n := by
  simp [State.regsBelow]

theorem State.regsBelow_getElem (s : State) (n k : Nat) (h : k < (s.regsBelow n).length) :
    (s.regsBelow n)[k] = s.reg (BitVec.ofNat 4 k) := by
  simp [State.regsBelow]

/-! ## Decimal digits (R193) -/

@[simp] theorem bcdDigits_length (v : Byte) : (bcdDigits v).length = 3 := rfl

/-! ## Keys (R233) -/

/-- A key is released iff it was held in the previous tick and is not held in this one. -/
theorem keyHeld_released (prev now : Keys) (k : BitVec 4) :
    keyHeld (released prev now) k = (keyHeld prev k && !keyHeld now k) := by
  have h : k.toNat < 16 := k.isLt
  simp [keyHeld, released, h]

theorem keyHeld_ofNat (keys : Keys) (k : Nat) (h : k < 16) :
    keyHeld keys (BitVec.ofNat 4 k) = keys.getLsbD k := by
  rw [keyHeld, BitVec.toNat_ofNat, Nat.mod_eq_of_lt h]

/-- The answer is a member of the set and no smaller key is one. -/
theorem smallestKey_some (keys : Keys) (k : BitVec 4) :
    smallestKey keys = some k ↔
      keyHeld keys k = true ∧ ∀ j : BitVec 4, j.toNat < k.toNat → keyHeld keys j = false := by
  have hk : k.toNat < 16 := k.isLt
  simp only [smallestKey, Option.map_eq_some_iff, List.find?_range_eq_some]
  constructor
  · rintro ⟨a, ⟨h1, h2, h3⟩, rfl⟩
    have ha : a < 16 := List.mem_range.1 h2
    rw [keyHeld_ofNat keys a ha]
    refine ⟨h1, fun j hj => ?_⟩
    rw [BitVec.toNat_ofNat, Nat.mod_eq_of_lt ha] at hj
    simpa [keyHeld] using h3 j.toNat hj
  · rintro ⟨h1, h2⟩
    refine ⟨k.toNat, ⟨h1, List.mem_range.2 hk, fun j hj => ?_⟩, by simp⟩
    have := h2 (BitVec.ofNat 4 j) (by
      rw [BitVec.toNat_ofNat, Nat.mod_eq_of_lt (by omega)]; exact hj)
    rw [keyHeld_ofNat keys j (by omega)] at this
    simp [this]

/-- There is no answer iff no key is in the set. -/
theorem smallestKey_none (keys : Keys) :
    smallestKey keys = none ↔ ∀ k : BitVec 4, keyHeld keys k = false := by
  simp only [smallestKey, Option.map_eq_none_iff, List.find?_eq_none, List.mem_range]
  constructor
  · intro h k
    simpa [keyHeld] using h k.toNat k.isLt
  · intro h j hj
    have := h (BitVec.ofNat 4 j)
    rw [keyHeld_ofNat keys j hj] at this
    simp [this]

/-! ## Sixteen-bit operands (R94, R144, R191) -/

@[simp] theorem zextAddr_toNat (nnn : Addr12) : (zextAddr nnn).toNat = nnn.toNat := by
  simp [zextAddr]; omega

@[simp] theorem zextByte_toNat (v : Byte) : (zextByte v).toNat = v.toNat := by
  simp [zextByte]; omega

end Sys2Proof.Machine
end

