-- ==== Sys2Proof/Laws/Display.lean ====
section
/-! SUPPORT. The blit row by row and the sprite mask bit by bit (spec/44_display.md R211, R212). -/

namespace Sys2Proof.Machine

/-- The mask has a 1 bit at column `c` iff the sprite byte placed at column `col` has one there; bits
right of column 63 are dropped (R212, R214). -/
theorem spriteMask_column (b : Byte) (col c : Nat) (h : c < 64) :
    (spriteMask b col).getLsbD (63 - c) =
      (decide (col ≤ c ∧ c < col + 8) && b.getLsbD (7 - (c - col))) := by
  have e : 64 + (63 - c) + col = 127 - c + col := by omega
  simp only [spriteMask, BitVec.getLsbD_extractLsb', BitVec.getLsbD_ushiftRight,
    BitVec.getLsbD_shiftLeft, BitVec.getLsbD_setWidth, BitVec.truncate_eq_setWidth]
  by_cases hc : col ≤ c ∧ c < col + 8
  · have e2 : col + (64 + (63 - c)) - 120 = 7 - (c - col) := by omega
    rw [e2]
    simp [hc, show 63 - c < 64 by omega, show col + (64 + (63 - c)) < 128 by omega,
      show ¬ col + (64 + (63 - c)) < 120 by omega, show 7 - (c - col) < 128 by omega]
  · rw [decide_eq_false hc, Bool.false_and]
    by_cases h1 : col ≤ c
    · simp [show col + (64 + (63 - c)) < 120 by omega]
    · simp [show ¬ col + (64 + (63 - c)) < 128 by omega]

/-- A row of the display after the blit: XORed with its sprite row if it has one, else as before. -/
theorem blit_row (disp : Vector PixelRow 32) (row col : Nat) (bs : List Byte) (r : Nat) (h : r < 32) :
    (blit disp row col bs).1[r] =
      if hk : row ≤ r ∧ r < row + bs.length then disp[r] ^^^ spriteMask (bs[r - row]'(by omega)) col
      else disp[r] := by
  induction bs generalizing disp row with
  | nil => rw [dif_neg (by simp)]; rfl
  | cons b rest ih =>
    simp only [List.length_cons]
    rw [blit]
    split
    · rename_i hrow
      rw [ih]
      by_cases e : r = row
      · subst r
        rw [dif_neg (by omega), dif_pos (by omega)]
        simp
      · by_cases hk : row ≤ r ∧ r < row + (rest.length + 1)
        · rw [dif_pos ⟨by omega, by omega⟩, dif_pos hk]
          rw [Vector.getElem_set_ne (h := fun e' => e e'.symm)]
          simp [show r - row = (r - (row + 1)) + 1 by omega]
        · rw [dif_neg (by omega), dif_neg hk, Vector.getElem_set_ne (h := fun e' => e e'.symm)]
    · have hk : ¬ (row ≤ r ∧ r < row + (rest.length + 1)) := by omega
      simp only [hk, dite_false]

/-- The collision flag: some drawn sprite row met a lit pixel of the display as it was before the
instruction (R215). -/
theorem blit_hit (disp : Vector PixelRow 32) (row col : Nat) (bs : List Byte) :
    (blit disp row col bs).2 = true ↔
      ∃ k, ∃ hk : k < bs.length, ∃ hr : row + k < 32,
        disp[row + k] &&& spriteMask bs[k] col ≠ 0 := by
  induction bs generalizing disp row with
  | nil => simp [blit]
  | cons b rest ih =>
    rw [blit]
    split
    · rename_i hrow
      simp only [Bool.or_eq_true, bne_iff_ne, ih]
      constructor
      · rintro (h | ⟨k, hk, hr, h⟩)
        · exact ⟨0, by simp, hrow, by simpa using h⟩
        · refine ⟨k + 1, by simpa using hk, by omega, ?_⟩
          rw [Vector.getElem_set_ne (h := by omega)] at h
          simpa [show row + (k + 1) = row + 1 + k by omega] using h
      · rintro ⟨k, hk, hr, h⟩
        cases k with
        | zero => exact .inl (by simpa using h)
        | succ k =>
          refine .inr ⟨k, by simpa using hk, by omega, ?_⟩
          rw [Vector.getElem_set_ne (h := by omega)]
          simpa [show row + (k + 1) = row + 1 + k by omega] using h
    · simp only [Bool.false_eq_true, false_iff]
      rintro ⟨k, hk, hr, -⟩
      omega

end Sys2Proof.Machine
end

