-- ==== Sys2Proof/Laws/Encoding.lean ====
section
/-! SUPPORT. The bits of the encoding formats (spec/30_encoding.md R92) and the fields cut from them
(R91): cited instead of unfolding concatenation and extraction. -/

namespace Sys2Proof

/-! ## Which operand each bit of a format is -/

theorem formatXKK_getElem (n0 : BitVec 4) (x : Reg) (kk : Byte) (i : Nat) (h : i < 16) :
    (formatXKK n0 x kk)[i] =
      if i < 8 then kk.getLsbD i else if i < 12 then x.getLsbD (i - 8) else n0.getLsbD (i - 12) := by
  have e : (formatXKK n0 x kk).getLsbD i =
      (if i < 8 then kk.getLsbD i else (n0 ++ x).getLsbD (i - 8)) := BitVec.getLsbD_append
  rw [← BitVec.getLsbD_eq_getElem, e, BitVec.getLsbD_append, show i - 8 - 4 = i - 12 by omega]
  grind

theorem formatNNN_getElem (n0 : BitVec 4) (nnn : Addr12) (i : Nat) (h : i < 16) :
    (formatNNN n0 nnn)[i] = if i < 12 then nnn.getLsbD i else n0.getLsbD (i - 12) := by
  have e : (formatNNN n0 nnn).getLsbD i =
      (if i < 12 then nnn.getLsbD i else n0.getLsbD (i - 12)) := BitVec.getLsbD_append
  rw [← BitVec.getLsbD_eq_getElem, e]

theorem formatXYN_getElem (n0 : BitVec 4) (x y : Reg) (n : BitVec 4) (i : Nat) (h : i < 16) :
    (formatXYN n0 x y n)[i] =
      if i < 4 then n.getLsbD i else if i < 8 then y.getLsbD (i - 4)
      else if i < 12 then x.getLsbD (i - 8) else n0.getLsbD (i - 12) := by
  have e : (formatXYN n0 x y n).getLsbD i =
      (if i < 4 then n.getLsbD i else (n0 ++ x ++ y).getLsbD (i - 4)) := BitVec.getLsbD_append
  rw [← BitVec.getLsbD_eq_getElem, e, BitVec.getLsbD_append, BitVec.getLsbD_append,
    show i - 4 - 4 = i - 8 by omega, show i - 8 - 4 = i - 12 by omega]
  grind

theorem wordOfBytes_getElem (b0 b1 : Byte) (i : Nat) (h : i < 16) :
    (wordOfBytes b0 b1)[i] = if i < 8 then b1.getLsbD i else b0.getLsbD (i - 8) := by
  have e : (wordOfBytes b0 b1).getLsbD i =
      (if i < 8 then b1.getLsbD i else b0.getLsbD (i - 8)) := BitVec.getLsbD_append
  rw [← BitVec.getLsbD_eq_getElem, e]

/-! ## The fields of each format -/

section Fields
variable (n0 : BitVec 4) (x y : Reg) (n : BitVec 4) (kk : Byte) (nnn : Addr12)

@[simp] theorem fieldN0_formatXKK : fieldN0 (formatXKK n0 x kk) = n0 := by
  apply BitVec.eq_of_getLsbD_eq; intro i hi
  interval_cases i <;> simp [fieldN0, formatXKK_getElem]
@[simp] theorem fieldX_formatXKK : fieldX (formatXKK n0 x kk) = x := by
  apply BitVec.eq_of_getLsbD_eq; intro i hi
  interval_cases i <;> simp [fieldX, formatXKK_getElem]
@[simp] theorem fieldKK_formatXKK : fieldKK (formatXKK n0 x kk) = kk := by
  apply BitVec.eq_of_getLsbD_eq; intro i hi
  interval_cases i <;> simp [fieldKK, formatXKK_getElem]
@[simp] theorem fieldN0_formatNNN : fieldN0 (formatNNN n0 nnn) = n0 := by
  apply BitVec.eq_of_getLsbD_eq; intro i hi
  interval_cases i <;> simp [fieldN0, formatNNN_getElem]
@[simp] theorem fieldNNN_formatNNN : fieldNNN (formatNNN n0 nnn) = nnn := by
  apply BitVec.eq_of_getLsbD_eq; intro i hi
  interval_cases i <;> simp [fieldNNN, formatNNN_getElem]
@[simp] theorem fieldN0_formatXYN : fieldN0 (formatXYN n0 x y n) = n0 := by
  apply BitVec.eq_of_getLsbD_eq; intro i hi
  interval_cases i <;> simp [fieldN0, formatXYN_getElem]
@[simp] theorem fieldX_formatXYN : fieldX (formatXYN n0 x y n) = x := by
  apply BitVec.eq_of_getLsbD_eq; intro i hi
  interval_cases i <;> simp [fieldX, formatXYN_getElem]
@[simp] theorem fieldY_formatXYN : fieldY (formatXYN n0 x y n) = y := by
  apply BitVec.eq_of_getLsbD_eq; intro i hi
  interval_cases i <;> simp [fieldY, formatXYN_getElem]
@[simp] theorem fieldN_formatXYN : fieldN (formatXYN n0 x y n) = n := by
  apply BitVec.eq_of_getLsbD_eq; intro i hi
  interval_cases i <;> simp [fieldN, formatXYN_getElem]

end Fields

/-! ## A word is made of its fields -/

theorem formatXKK_fields (op : Word) : formatXKK (fieldN0 op) (fieldX op) (fieldKK op) = op := by
  apply BitVec.eq_of_getLsbD_eq; intro i hi
  interval_cases i <;> simp [fieldN0, fieldX, fieldKK, formatXKK_getElem]
theorem formatNNN_fields (op : Word) : formatNNN (fieldN0 op) (fieldNNN op) = op := by
  apply BitVec.eq_of_getLsbD_eq; intro i hi
  interval_cases i <;> simp [fieldN0, fieldNNN, formatNNN_getElem]
theorem formatXYN_fields (op : Word) :
    formatXYN (fieldN0 op) (fieldX op) (fieldY op) (fieldN op) = op := by
  apply BitVec.eq_of_getLsbD_eq; intro i hi
  interval_cases i <;> simp [fieldN0, fieldX, fieldY, fieldN, formatXYN_getElem]
theorem wordOfBytes_bytes (op : Word) : wordOfBytes (highByte op) (lowByte op) = op := by
  apply BitVec.eq_of_getLsbD_eq; intro i hi
  interval_cases i <;> simp [highByte, lowByte, wordOfBytes_getElem]

/-! ## The formats under the masks of R92 -/

theorem formatXKK_mask (n0 : BitVec 4) (x : Reg) (kk : Byte) :
    formatXKK n0 x kk &&& 0xF000 = formatXKK n0 0 0 := by
  apply BitVec.eq_of_getLsbD_eq; intro i hi
  interval_cases i <;> simp [formatXKK_getElem]
theorem formatXKK_maskX (n0 : BitVec 4) (x : Reg) (kk : Byte) :
    formatXKK n0 x kk &&& 0xF0FF = formatXKK n0 0 kk := by
  apply BitVec.eq_of_getLsbD_eq; intro i hi
  interval_cases i <;> simp [formatXKK_getElem]
theorem formatNNN_mask (n0 : BitVec 4) (nnn : Addr12) :
    formatNNN n0 nnn &&& 0xF000 = formatNNN n0 0 := by
  apply BitVec.eq_of_getLsbD_eq; intro i hi
  interval_cases i <;> simp [formatNNN_getElem]
theorem formatXYN_maskXYN (n0 : BitVec 4) (x y : Reg) (n : BitVec 4) :
    formatXYN n0 x y n &&& 0xF000 = formatXYN n0 0 0 0 := by
  apply BitVec.eq_of_getLsbD_eq; intro i hi
  interval_cases i <;> simp [formatXYN_getElem]
theorem formatXYN_maskXY (n0 : BitVec 4) (x y : Reg) (n : BitVec 4) :
    formatXYN n0 x y n &&& 0xF00F = formatXYN n0 0 0 n := by
  apply BitVec.eq_of_getLsbD_eq; intro i hi
  interval_cases i <;> simp [formatXYN_getElem]

end Sys2Proof
end

