-- ==== Sys2Proof/Laws/PerInstr.lean ====
section
/-! SUPPORT. Per-instruction statement `EncodesInRow`: the word of an instruction is an instance of
its own row of the opcode map (spec/30_encoding.md R92, R96), whatever its operands. -/

namespace Sys2Proof.Laws.EncodesInRow

/-- `encode i AND mask = match` for the row of `i`. -/
def Statement (i : Instr) : Prop := i.row.admits (encode i) = true

theorem cls : Statement (.cls) := by
  simp only [Statement]; decide
theorem ret : Statement (.ret) := by
  simp only [Statement]; decide
theorem jp (nnn : Addr12) : Statement (.jp nnn) := by
  simp only [Statement, Instr.row, OpRow.admits, encode, formatNNN_mask]; decide
theorem call (nnn : Addr12) : Statement (.call nnn) := by
  simp only [Statement, Instr.row, OpRow.admits, encode, formatNNN_mask]; decide
theorem seByte (x : Reg) (kk : Byte) : Statement (.seByte x kk) := by
  simp only [Statement, Instr.row, OpRow.admits, encode, formatXKK_mask]; decide
theorem sneByte (x : Reg) (kk : Byte) : Statement (.sneByte x kk) := by
  simp only [Statement, Instr.row, OpRow.admits, encode, formatXKK_mask]; decide
theorem seReg (x : Reg) (y : Reg) : Statement (.seReg x y) := by
  simp only [Statement, Instr.row, OpRow.admits, encode, formatXYN_maskXY]; decide
theorem ldByte (x : Reg) (kk : Byte) : Statement (.ldByte x kk) := by
  simp only [Statement, Instr.row, OpRow.admits, encode, formatXKK_mask]; decide
theorem addByte (x : Reg) (kk : Byte) : Statement (.addByte x kk) := by
  simp only [Statement, Instr.row, OpRow.admits, encode, formatXKK_mask]; decide
theorem ldReg (x : Reg) (y : Reg) : Statement (.ldReg x y) := by
  simp only [Statement, Instr.row, OpRow.admits, encode, formatXYN_maskXY]; decide
theorem orReg (x : Reg) (y : Reg) : Statement (.orReg x y) := by
  simp only [Statement, Instr.row, OpRow.admits, encode, formatXYN_maskXY]; decide
theorem andReg (x : Reg) (y : Reg) : Statement (.andReg x y) := by
  simp only [Statement, Instr.row, OpRow.admits, encode, formatXYN_maskXY]; decide
theorem xorReg (x : Reg) (y : Reg) : Statement (.xorReg x y) := by
  simp only [Statement, Instr.row, OpRow.admits, encode, formatXYN_maskXY]; decide
theorem addReg (x : Reg) (y : Reg) : Statement (.addReg x y) := by
  simp only [Statement, Instr.row, OpRow.admits, encode, formatXYN_maskXY]; decide
theorem subReg (x : Reg) (y : Reg) : Statement (.subReg x y) := by
  simp only [Statement, Instr.row, OpRow.admits, encode, formatXYN_maskXY]; decide
theorem shrReg (x : Reg) (y : Reg) : Statement (.shrReg x y) := by
  simp only [Statement, Instr.row, OpRow.admits, encode, formatXYN_maskXY]; decide
theorem subnReg (x : Reg) (y : Reg) : Statement (.subnReg x y) := by
  simp only [Statement, Instr.row, OpRow.admits, encode, formatXYN_maskXY]; decide
theorem shlReg (x : Reg) (y : Reg) : Statement (.shlReg x y) := by
  simp only [Statement, Instr.row, OpRow.admits, encode, formatXYN_maskXY]; decide
theorem sneReg (x : Reg) (y : Reg) : Statement (.sneReg x y) := by
  simp only [Statement, Instr.row, OpRow.admits, encode, formatXYN_maskXY]; decide
theorem ldI (nnn : Addr12) : Statement (.ldI nnn) := by
  simp only [Statement, Instr.row, OpRow.admits, encode, formatNNN_mask]; decide
theorem jpV0 (nnn : Addr12) : Statement (.jpV0 nnn) := by
  simp only [Statement, Instr.row, OpRow.admits, encode, formatNNN_mask]; decide
theorem rnd (x : Reg) (kk : Byte) : Statement (.rnd x kk) := by
  simp only [Statement, Instr.row, OpRow.admits, encode, formatXKK_mask]; decide
theorem drw (x : Reg) (y : Reg) (n : BitVec 4) : Statement (.drw x y n) := by
  simp only [Statement, Instr.row, OpRow.admits, encode, formatXYN_maskXYN]; decide
theorem skp (x : Reg) : Statement (.skp x) := by
  simp only [Statement, Instr.row, OpRow.admits, encode, formatXKK_maskX]; decide
theorem sknp (x : Reg) : Statement (.sknp x) := by
  simp only [Statement, Instr.row, OpRow.admits, encode, formatXKK_maskX]; decide
theorem ldVxDT (x : Reg) : Statement (.ldVxDT x) := by
  simp only [Statement, Instr.row, OpRow.admits, encode, formatXKK_maskX]; decide
theorem ldVxK (x : Reg) : Statement (.ldVxK x) := by
  simp only [Statement, Instr.row, OpRow.admits, encode, formatXKK_maskX]; decide
theorem ldDT (x : Reg) : Statement (.ldDT x) := by
  simp only [Statement, Instr.row, OpRow.admits, encode, formatXKK_maskX]; decide
theorem ldST (x : Reg) : Statement (.ldST x) := by
  simp only [Statement, Instr.row, OpRow.admits, encode, formatXKK_maskX]; decide
theorem addI (x : Reg) : Statement (.addI x) := by
  simp only [Statement, Instr.row, OpRow.admits, encode, formatXKK_maskX]; decide
theorem ldF (x : Reg) : Statement (.ldF x) := by
  simp only [Statement, Instr.row, OpRow.admits, encode, formatXKK_maskX]; decide
theorem ldB (x : Reg) : Statement (.ldB x) := by
  simp only [Statement, Instr.row, OpRow.admits, encode, formatXKK_maskX]; decide
theorem stRegs (x : Reg) : Statement (.stRegs x) := by
  simp only [Statement, Instr.row, OpRow.admits, encode, formatXKK_maskX]; decide
theorem ldRegs (x : Reg) : Statement (.ldRegs x) := by
  simp only [Statement, Instr.row, OpRow.admits, encode, formatXKK_maskX]; decide

end Sys2Proof.Laws.EncodesInRow
end

