-- ==== Sys2Proof/Laws/Stepper.lean ====
section
/-! SUPPORT. The phases of a tick (spec/60_exceptions.md R262): what stands before and after an
instruction, by cases and field by field. -/

namespace Sys2Proof.Machine

/-- Before the first slot of a tick come phases 0 and 1. -/
theorem State.beforeSlot_first (s : State) (h : s.slot = 0) : s.beforeSlot = s.beginTick := by
  cases s
  simp_all [State.beforeSlot, State.atTickStart, State.beginTick, State.consumeKeys,
    State.latchKeys, State.timerPhase]

/-- Before a later slot comes nothing. -/
theorem State.beforeSlot_later (s : State) (h : s.slot ≠ 0) : s.beforeSlot = s := by
  simp [State.beforeSlot, State.atTickStart, h]

/-- A fault ends the tick at once. -/
theorem State.afterSlot_halted (s : State) (h : s.halted = true) :
    s.afterSlot = { s with slot := 0 } := by
  simp [State.afterSlot, h]

/-- The last slot of a tick is followed by phase 3. -/
theorem State.afterSlot_last (s : State) (h : s.halted = false) (l : s.cfg.ipt ≤ s.slot + 1) :
    s.afterSlot = { s.latchPrevKeys with slot := 0 } := by
  simp [State.afterSlot, State.atTickEnd, h, l, State.latchPrevKeys]

/-- After any other slot the next slot is due. -/
theorem State.afterSlot_more (s : State) (h : s.halted = false) (l : s.slot + 1 < s.cfg.ipt) :
    s.afterSlot = { s with slot := s.slot + 1 } := by
  simp [State.afterSlot, State.atTickEnd, h, Nat.not_le.2 l]

@[simp] theorem State.beforeSlot_mem (s : State) : s.beforeSlot.mem = s.mem := rfl
@[simp] theorem State.beforeSlot_V (s : State) : s.beforeSlot.V = s.V := rfl
@[simp] theorem State.beforeSlot_I (s : State) : s.beforeSlot.I = s.I := rfl
@[simp] theorem State.beforeSlot_pc (s : State) : s.beforeSlot.pc = s.pc := rfl
@[simp] theorem State.beforeSlot_stack (s : State) : s.beforeSlot.stack = s.stack := rfl
@[simp] theorem State.beforeSlot_disp (s : State) : s.beforeSlot.disp = s.disp := rfl
@[simp] theorem State.beforeSlot_keysPrev (s : State) : s.beforeSlot.keysPrev = s.keysPrev := rfl
@[simp] theorem State.beforeSlot_fault (s : State) : s.beforeSlot.fault = s.fault := rfl
@[simp] theorem State.beforeSlot_cfg (s : State) : s.beforeSlot.cfg = s.cfg := rfl
@[simp] theorem State.beforeSlot_slot (s : State) : s.beforeSlot.slot = s.slot := rfl
@[simp] theorem State.beforeSlot_rndIn (s : State) : s.beforeSlot.rndIn = s.rndIn := rfl
@[simp] theorem State.beforeSlot_rndNo (s : State) : s.beforeSlot.rndNo = s.rndNo := rfl
@[simp] theorem State.beforeSlot_reg (s : State) (r : Reg) : s.beforeSlot.reg r = s.reg r := rfl
@[simp] theorem State.beforeSlot_readByte (s : State) (a : Nat) : s.beforeSlot.readByte a = s.readByte a := rfl

@[simp] theorem State.afterSlot_mem (s : State) : s.afterSlot.mem = s.mem := rfl
@[simp] theorem State.afterSlot_V (s : State) : s.afterSlot.V = s.V := rfl
@[simp] theorem State.afterSlot_I (s : State) : s.afterSlot.I = s.I := rfl
@[simp] theorem State.afterSlot_pc (s : State) : s.afterSlot.pc = s.pc := rfl
@[simp] theorem State.afterSlot_stack (s : State) : s.afterSlot.stack = s.stack := rfl
@[simp] theorem State.afterSlot_DT (s : State) : s.afterSlot.DT = s.DT := rfl
@[simp] theorem State.afterSlot_ST (s : State) : s.afterSlot.ST = s.ST := rfl
@[simp] theorem State.afterSlot_disp (s : State) : s.afterSlot.disp = s.disp := rfl
@[simp] theorem State.afterSlot_tone (s : State) : s.afterSlot.tone = s.tone := rfl
@[simp] theorem State.afterSlot_keysNow (s : State) : s.afterSlot.keysNow = s.keysNow := rfl
@[simp] theorem State.afterSlot_fault (s : State) : s.afterSlot.fault = s.fault := rfl
@[simp] theorem State.afterSlot_cfg (s : State) : s.afterSlot.cfg = s.cfg := rfl
@[simp] theorem State.afterSlot_keysIn (s : State) : s.afterSlot.keysIn = s.keysIn := rfl
@[simp] theorem State.afterSlot_rndIn (s : State) : s.afterSlot.rndIn = s.rndIn := rfl
@[simp] theorem State.afterSlot_tickNo (s : State) : s.afterSlot.tickNo = s.tickNo := rfl
@[simp] theorem State.afterSlot_rndNo (s : State) : s.afterSlot.rndNo = s.rndNo := rfl
@[simp] theorem State.afterSlot_reg (s : State) (r : Reg) : s.afterSlot.reg r = s.reg r := rfl
@[simp] theorem State.afterSlot_readByte (s : State) (a : Nat) : s.afterSlot.readByte a = s.readByte a := rfl

/-- The phases before an instruction do not change what is fetched. -/
@[simp] theorem State.beforeSlot_fetchWord (s : State) : s.beforeSlot.fetchWord = s.fetchWord := by
  simp [State.fetchWord_eq]

/-- A run of `k + 1` steps is a step and a run of `k`. -/
theorem runSteps_succ (k : Nat) (s t : State) (h : step s = .next t) :
    runSteps (k + 1) s = runSteps k t := by
  rw [runSteps, h]

/-- `runSteps` is the interface's own run. -/
theorem core_run (k : Nat) (s : State) : Sys2Proof.core.run k s = runSteps k s := by
  induction k generalizing s with
  | zero => rfl
  | succ k ih =>
    have e : Sys2Proof.core.step s = step s := rfl
    simp only [Host.Core.run, runSteps]
    rw [e]
    cases step s with
    | next t => exact ih t
    | fault r => rfl
    | refused r => rfl

@[simp] theorem State.report_pc (s : State) : s.report.pc = s.pc := rfl
@[simp] theorem State.report_I (s : State) : s.report.I = s.I := rfl
@[simp] theorem State.report_stack (s : State) : s.report.stack = s.stack := rfl
@[simp] theorem State.report_tone (s : State) : s.report.tone = s.tone := rfl
@[simp] theorem State.report_disp (s : State) : s.report.disp = s.disp := rfl
@[simp] theorem State.report_fault (s : State) : s.report.fault = s.fault := rfl
@[simp] theorem State.debugView_pc (s : State) : s.debugView.pc = s.pc := rfl
@[simp] theorem State.debugView_I (s : State) : s.debugView.I = s.I := rfl
@[simp] theorem State.debugView_stack (s : State) : s.debugView.stack = s.stack := rfl

/-- The debug view shows every byte of the address space. -/
@[simp] theorem State.debugView_mem (s : State) (a : Nat) (h : a < 4096) :
    s.debugView.mem[a] = s.readByte a := by
  simp [State.debugView]

/-- The place in the tick stays one of its slots. -/
theorem State.afterSlot_slotOk (s : State) : s.afterSlot.slotOk := by
  have hpos : 0 < s.cfg.ipt := Nat.succ_pos _
  cases hh : s.halted with
  | true => rw [State.afterSlot_halted s hh]; exact hpos
  | false =>
    by_cases hl : s.cfg.ipt ≤ s.slot + 1
    · rw [State.afterSlot_last s hh hl]; exact hpos
    · rw [State.afterSlot_more s hh (by omega)]; exact Nat.not_le.1 hl

end Sys2Proof.Machine
end

