-- ==== Sys2Proof/Tests/Slice0.lean ====
section
/-! SUPPORT. The model's own tests: the checks on words and ROMs, the decoder on words written out from
spec/30_encoding.md, one or two single steps per instruction with the values of spec/95_test_vectors.md
(the id of the vector stands before each), and for every statement with hypotheses a state and operands
that meet them (`witness_…`). -/

namespace Sys2Proof.Tests

open Sys2Proof.Machine

set_option maxRecDepth 20000

/-! ## Helpers -/

/-- The reference parameters of the vectors: `IPT = 1`, `LOGIC_CLEARS_VF = false`, `RESERVED_TOP = 0`. -/
def plain : Config := ⟨0, false, .none, Config.conventionalFont⟩
/-- The same with `LOGIC_CLEARS_VF = true`. -/
def quirky : Config := ⟨0, true, .none, Config.conventionalFont⟩
/-- The same with `RESERVED_TOP = 352`. -/
def reserved : Config := ⟨0, false, .bytes352, Config.conventionalFont⟩

/-- The state after reset with an empty ROM. -/
def idle : State := State.load plain []
/-- The state after reset with two slots in a tick. -/
def idle2 : State := State.load ⟨1, false, .none, Config.conventionalFont⟩ []

/-- The byte `v` stored at `a`. -/
def poke (a : Nat) (v : Byte) (s : State) : State :=
  { s with mem := Memory.write s.cfg s.mem a v }

/-- The outcome is a next state with the property. -/
def next (o : Host.Outcome State Fault Refusal) (p : State → Bool) : Bool :=
  match o with
  | .next t => p t
  | .fault _ => false
  | .refused _ => false

/-- One instruction step on the word, placed at `pc`. -/
def runs (w : Nat) (s : State) (p : State → Bool) : Bool :=
  next (instructionStep (s.withFetchWord 16 w)) p

/-! ## Well-formed words and ROMs -/

/-- T1 to T7 and the table of R100: for each major opcode that has one, a word that is an instance of
no row; the check refuses it. -/
theorem test_illegal_words_refused :
    ([0x0000, 0x0123, 0x00E1, 0x00EF, 0x5121, 0x512F, 0x8128] : List Word).all (!legalWord ·) = true ∧
    ([0x812D, 0x812F, 0x9121, 0xE19F, 0xE1A0, 0xF1FF, 0xF108] : List Word).all (!legalWord ·) = true := by
  decide

/-- A word of every row passes the check. -/
theorem test_legal_words_pass : ∀ r ∈ opcodeMap, legalWord r.bits = true := by decide

/-- R95: no two rows of the opcode map have a common instance. -/
theorem test_rows_disjoint : opcodeMap.Pairwise (fun r q => r.disjoint q = true) := by decide

/-- The map has the 34 rows of R96. -/
theorem test_rows_count : opcodeMap.length = 34 := rfl

/-- S8: a ROM of exactly `CAP` bytes fits, one byte more does not. -/
theorem test_rom_boundary :
    romFits plain (List.replicate 3584 0) = true ∧ romFits plain (List.replicate 3585 0) = false ∧
    romFits reserved (List.replicate 3232 0) = true ∧
    romFits reserved (List.replicate 3233 0) = false := by
  simp [romFits, plain, reserved, Config.capacity, Config.reservedBytes]

/-! ## Decoding -/

/-- Control transfer, R92 and R96. -/
theorem test_decode_flow :
    decodeTableWord 16 0x00EE = some .ret ∧ decodeTableWord 16 0x1ABC = some (.jp 0xABC) ∧
    decodeTableWord 16 0x2ABC = some (.call 0xABC) ∧ decodeTableWord 16 0xBABC = some (.jpV0 0xABC) ∧
    decodeTableWord 16 0x3A05 = some (.seByte 0xA 0x05) ∧
    decodeTableWord 16 0x4A05 = some (.sneByte 0xA 0x05) ∧
    decodeTableWord 16 0x5120 = some (.seReg 1 2) ∧ decodeTableWord 16 0x9120 = some (.sneReg 1 2) := by
  decide

/-- Load, arithmetic, logic, shift, random. -/
theorem test_decode_alu :
    decodeTableWord 16 0x6A2B = some (.ldByte 0xA 0x2B) ∧
    decodeTableWord 16 0x7A01 = some (.addByte 0xA 0x01) ∧
    decodeTableWord 16 0x8120 = some (.ldReg 1 2) ∧ decodeTableWord 16 0x8121 = some (.orReg 1 2) ∧
    decodeTableWord 16 0x8122 = some (.andReg 1 2) ∧ decodeTableWord 16 0x8123 = some (.xorReg 1 2) ∧
    decodeTableWord 16 0x8124 = some (.addReg 1 2) ∧ decodeTableWord 16 0x8125 = some (.subReg 1 2) ∧
    decodeTableWord 16 0x8126 = some (.shrReg 1 2) ∧ decodeTableWord 16 0x8127 = some (.subnReg 1 2) ∧
    decodeTableWord 16 0x812E = some (.shlReg 1 2) ∧
    decodeTableWord 16 0xC10F = some (.rnd 1 0x0F) := by decide

/-- Index register, memory transfer, display, keypad, timers. -/
theorem test_decode_rest :
    decodeTableWord 16 0x00E0 = some .cls ∧ decodeTableWord 16 0xD125 = some (.drw 1 2 5) ∧
    decodeTableWord 16 0xA2F0 = some (.ldI 0x2F0) ∧ decodeTableWord 16 0xF11E = some (.addI 1) ∧
    decodeTableWord 16 0xF129 = some (.ldF 1) ∧ decodeTableWord 16 0xF133 = some (.ldB 1) ∧
    decodeTableWord 16 0xF255 = some (.stRegs 2) ∧ decodeTableWord 16 0xF165 = some (.ldRegs 1) ∧
    decodeTableWord 16 0xE19E = some (.skp 1) ∧ decodeTableWord 16 0xE1A1 = some (.sknp 1) ∧
    decodeTableWord 16 0xF107 = some (.ldVxDT 1) ∧ decodeTableWord 16 0xF50A = some (.ldVxK 5) ∧
    decodeTableWord 16 0xF115 = some (.ldDT 1) ∧ decodeTableWord 16 0xF118 = some (.ldST 1) := by
  decide

/-- One word of each format of R92, bit by bit: FIX, NNN (opcode 1, nnn), XKK (opcode 6, x, kk), XY
(opcode 8, x, y, function), XYN (opcode D, x, y, n), X (opcode F, x, kk). -/
theorem test_decode_bits :
    decodeTableWord 16 0b0000000011100000 = some .cls ∧
    decodeTableWord 16 0b0001001000110100 = some (.jp 0x234) ∧
    decodeTableWord 16 0b0110101000101011 = some (.ldByte 0xA 0x2B) ∧
    decodeTableWord 16 0b1000000100101110 = some (.shlReg 1 2) ∧
    decodeTableWord 16 0b1101000100100101 = some (.drw 1 2 5) ∧
    decodeTableWord 16 0b1110000110100001 = some (.sknp 1) ∧
    decodeTableWord 16 0b1111001001010101 = some (.stRegs 2) := by decide

/-- R90, R62: the decoder takes two bytes, the high byte first, and gives the rest back. -/
theorem test_decode_bytes : (decodeBytes [0x12, 0x34, 0x60]).toOption = some (.jp 0x234, [0x60]) ∧
    (decodeBytes [0x12]).toOption = none := by decide

/-! ## Fetch and unknown opcodes -/

/-- T1, T2. -/
theorem test_unknown : runs 0x0000 idle (fun t => t.fault == some ⟨.unknownOpcode, 0x0200, 0x0000⟩) ∧
    runs 0x0123 idle (fun t => t.fault == some ⟨.unknownOpcode, 0x0200, 0x0123⟩ && t.pc == 0x200) := by
  decide

/-- T8, T9: the last address with a whole word is 0xFFE. -/
theorem test_fetch_bound :
    runs 0x60AB { idle with pc := 0xFFE } (fun t => t.reg 0 == 0xAB && t.pc == 0x1000) ∧
    next (instructionStep { idle with pc := 0xFFF })
      (fun t => t.fault == some ⟨.fetchOutOfBounds, 0x0FFF, 0x0000⟩ && t.pc == 0xFFF) := by decide

/-- T10: a fetch at an odd address is no fault. -/
theorem test_fetch_odd :
    runs 0x6107 { idle with pc := 0x201 } (fun t => t.reg 1 == 0x07 && t.pc == 0x203) := by decide

/-! ## Control transfer -/

/-- T20, S7. -/
theorem test_ret : runs 0x00EE { idle with stack := [0x0310, 0x0204] }
      (fun t => t.pc == 0x310 && t.stack == [0x0204]) ∧
    runs 0x00EE idle (fun t => t.fault == some ⟨.stackUnderflow, 0x0200, 0x00EE⟩ && t.pc == 0x200) := by
  decide

/-- T21. -/
theorem test_jp : runs 0x1FFF idle (fun t => t.pc == 0x0FFF && t.stack == []) := by decide

/-- T23, T24. -/
theorem test_call :
    runs 0x2300 { idle with pc := 0x202 } (fun t => t.stack == [0x0204] && t.pc == 0x300) ∧
    runs 0x2200 { idle with pc := 0xFFE } (fun t => t.stack == [0x1000] && t.pc == 0x200) := by decide

/-- T26: the sum is not masked to 12 bits. -/
theorem test_jpV0 : runs 0xBFFF (idle.setReg 0 0xFF) (fun t => t.pc == 0x10FE) := by decide

/-- T27, T28. -/
theorem test_seByte : runs 0x3A05 (idle.setReg 0xA 5) (fun t => t.pc == 0x204) ∧
    runs 0x3A05 (idle.setReg 0xA 6) (fun t => t.pc == 0x202) := by decide

/-- T29, T30. -/
theorem test_sneByte : runs 0x4A05 (idle.setReg 0xA 5) (fun t => t.pc == 0x202) ∧
    runs 0x4A05 (idle.setReg 0xA 6) (fun t => t.pc == 0x204) := by decide

/-- T31, T32. -/
theorem test_seReg : runs 0x5120 ((idle.setReg 1 0x33).setReg 2 0x33) (fun t => t.pc == 0x204) ∧
    runs 0x5120 (idle.setReg 1 0x33) (fun t => t.pc == 0x202) := by decide

/-- T33, T34. -/
theorem test_sneReg : runs 0x9120 ((idle.setReg 1 1).setReg 2 2) (fun t => t.pc == 0x204) ∧
    runs 0x9110 (idle.setReg 1 0x33) (fun t => t.pc == 0x202) := by decide

/-- T35: a skip at the top of memory does not wrap. -/
theorem test_skip_edge : runs 0x3000 { idle with pc := 0xFFE } (fun t => t.pc == 0x1002) := by decide

/-! ## Load, arithmetic, logic, shift, random -/

/-- T40. -/
theorem test_ldByte : runs 0x6A2B idle (fun t => t.reg 0xA == 0x2B && t.pc == 0x202) := by decide

/-- T41, T42. -/
theorem test_addByte : runs 0x7A01 (idle.setReg 0xA 0xFF) (fun t => t.reg 0xA == 0 && t.reg 0xF == 0) ∧
    runs 0x7F01 (idle.setReg 0xF 0xFF) (fun t => t.reg 0xF == 0) := by decide

/-- T43. -/
theorem test_ldReg : runs 0x8120 (idle.setReg 2 0x7E) (fun t => t.reg 1 == 0x7E && t.reg 2 == 0x7E) := by
  decide

/-- T44, T45. -/
theorem test_orReg :
    runs 0x8121 (((idle.setReg 1 0x0F).setReg 2 0xF0).setReg 0xF 1)
      (fun t => t.reg 1 == 0xFF && t.reg 0xF == 1) ∧
    runs 0x8121 ((((State.load quirky []).setReg 1 0x0F).setReg 2 0xF0).setReg 0xF 1)
      (fun t => t.reg 1 == 0xFF && t.reg 0xF == 0) := by decide

/-- T46, T51: with `y = F` the old `VF` is the operand. -/
theorem test_andReg :
    runs 0x8122 ((idle.setReg 1 0x3C).setReg 2 0x0F) (fun t => t.reg 1 == 0x0C) ∧
    runs 0x81F2 (((State.load quirky []).setReg 1 0xFF).setReg 0xF 0x0F)
      (fun t => t.reg 1 == 0x0F && t.reg 0xF == 0) := by decide

/-- T47, T48. -/
theorem test_xorReg :
    runs 0x8123 ((idle.setReg 1 0xFF).setReg 2 0x0F) (fun t => t.reg 1 == 0xF0) ∧
    runs 0x8113 ((idle.setReg 1 0x5A).setReg 0xF 1) (fun t => t.reg 1 == 0 && t.reg 0xF == 1) := by
  decide

/-- S1, T55: with `x = F` the carry is what stays. -/
theorem test_addReg :
    runs 0x8124 ((idle.setReg 1 0xC8).setReg 2 0x64) (fun t => t.reg 1 == 0x2C && t.reg 0xF == 1) ∧
    runs 0x8F14 ((idle.setReg 0xF 0xFF).setReg 1 0x01) (fun t => t.reg 0xF == 1) := by decide

/-- S2 and its second clause. -/
theorem test_subReg :
    runs 0x8125 ((idle.setReg 1 0x80).setReg 2 0x7F) (fun t => t.reg 1 == 0x01 && t.reg 0xF == 1) ∧
    runs 0x8125 ((idle.setReg 1 0x7F).setReg 2 0x80) (fun t => t.reg 1 == 0xFF && t.reg 0xF == 0) := by
  decide

/-- S3, T66: the source is `Vy`. -/
theorem test_shrReg :
    runs 0x8126 ((idle.setReg 1 0xAA).setReg 2 0x05) (fun t => t.reg 1 == 0x02 && t.reg 0xF == 1) ∧
    runs 0x8F16 ((idle.setReg 1 0x03).setReg 0xF 0x55) (fun t => t.reg 0xF == 1 && t.reg 1 == 3) := by
  decide

/-- T67, T68. -/
theorem test_subnReg :
    runs 0x8127 ((idle.setReg 1 0x03).setReg 2 0x05) (fun t => t.reg 1 == 0x02 && t.reg 0xF == 1) ∧
    runs 0x8127 ((idle.setReg 1 0x05).setReg 2 0x03) (fun t => t.reg 1 == 0xFE && t.reg 0xF == 0) := by
  decide

/-- T70, T72. -/
theorem test_shlReg :
    runs 0x812E (idle.setReg 2 0x81) (fun t => t.reg 1 == 0x02 && t.reg 2 == 0x81 && t.reg 0xF == 1) ∧
    runs 0x812E (idle.setReg 2 0x40) (fun t => t.reg 1 == 0x80 && t.reg 0xF == 0) := by decide

/-- T74, T75: the bytes the port gives are used in order. -/
theorem test_rnd :
    runs 0xC10F { idle with rndIn := [0xA7, 0x11] } (fun t => t.reg 1 == 0x07 && t.rndIn == [0x11]) ∧
    runs 0xC1F0 { idle with rndIn := [0xA7] } (fun t => t.reg 1 == 0xA0) := by decide

/-- T76: with no bit asked for the result is 0, whatever the free byte is. -/
theorem test_rnd_free : ∃ t, exec (.rnd 1 0) idle = .next t ∧ t.reg 1 = 0 :=
  ⟨_, rfl, by simp⟩

/-! ## Index register and memory transfer -/

/-- T80. -/
theorem test_ldI : runs 0xA2F0 { idle with I := 0xFFFF } (fun t => t.I == 0x02F0) := by decide

/-- T83, T85: the flag comes from the wrapped value. -/
theorem test_addI :
    runs 0xF11E { idle.setReg 1 1 with I := 0x0FFF } (fun t => t.I == 0x1000 && t.reg 0xF == 1) ∧
    runs 0xF11E { idle.setReg 1 1 with I := 0xFFFF } (fun t => t.I == 0x0000 && t.reg 0xF == 0) := by
  decide

/-- T87, T88: the high nibble is ignored. -/
theorem test_ldF : runs 0xF129 (idle.setReg 1 0x0F) (fun t => t.I == 0x009B) ∧
    runs 0xF129 (idle.setReg 1 0x1A) (fun t => t.I == 0x0082) := by decide

/-- T91, T92: the last address at which the three digits fit is 0xFFD. -/
theorem test_ldB :
    runs 0xF133 { idle.setReg 1 0xFF with I := 0xFFD }
      (fun t => t.readByte 0xFFD == 2 && t.readByte 0xFFE == 5 && t.readByte 0xFFF == 5) ∧
    runs 0xF133 { idle.setReg 1 0xFF with I := 0xFFE }
      (fun t => t.fault == some ⟨.memoryAccessViolation, 0x0200, 0xF133⟩ && t.readByte 0xFFE == 0) := by
  decide

/-- T93, T95: `I` stays, and a range that passes 0xFFF stores nothing. -/
theorem test_stRegs :
    runs 0xF255 { ((idle.setReg 0 0x11).setReg 1 0x22).setReg 2 0x33 with I := 0x400 }
      (fun t => t.readByte 0x400 == 0x11 && t.readByte 0x402 == 0x33 && t.I == 0x400) ∧
    runs 0xFF55 { idle.setReg 0 0x11 with I := 0xFF1 }
      (fun t => t.fault == some ⟨.memoryAccessViolation, 0x0200, 0xFF55⟩ && t.readByte 0xFF1 == 0) := by
  decide

/-- T96, T98. -/
theorem test_ldRegs :
    runs 0xF165 { poke 0x400 0xAA (poke 0x401 0xBB (idle.setReg 2 0x77)) with I := 0x400 }
      (fun t => t.reg 0 == 0xAA && t.reg 1 == 0xBB && t.reg 2 == 0x77 && t.I == 0x400) ∧
    runs 0xF065 { poke 0xFFF 0x9C idle with I := 0xFFF } (fun t => t.reg 0 == 0x9C) := by decide

/-! ## Display -/

/-- T110: `VF` is not touched. -/
theorem test_cls : runs 0x00E0 { idle.setReg 0xF 1 with disp := idle.disp.set 5 0x0123456789ABCDEF }
    (fun t => t.disp == Vector.replicate 32 0 && t.reg 0xF == 1) := by decide

/-- T115, T117: the right and the bottom clip. -/
theorem test_drw_clips :
    runs 0xD011 { poke 0x300 0x81 (idle.setReg 0 63) with I := 0x300 }
      (fun t => t.disp == idle.disp.set 0 1 && t.reg 0xF == 0) ∧
    runs 0xD014 { poke 0x300 0xFF (poke 0x301 0xFF (idle.setReg 1 31)) with I := 0x300 }
      (fun t => t.disp == idle.disp.set 31 0xFF00000000000000 && t.reg 0xF == 0) := by decide

/-- T123, T118: the collision is accumulated over the rows; the range is checked as a whole. -/
theorem test_drw_collides :
    runs 0xD012 { poke 0x300 0x80 (poke 0x301 0x80 idle) with
        I := 0x300, disp := idle.disp.set 0 0x8000000000000000 }
      (fun t => t.disp == idle.disp.set 1 0x8000000000000000 && t.reg 0xF == 1) ∧
    runs 0xD014 { idle.setReg 1 31 with I := 0xFFD }
      (fun t => t.fault == some ⟨.memoryAccessViolation, 0x0200, 0xD014⟩) := by decide

/-! ## Keypad and timers -/

/-- T130, T132. -/
theorem test_skp :
    runs 0xE19E { idle.setReg 1 0x13 with keysNow := 0x0008 } (fun t => t.pc == 0x204) ∧
    runs 0xE19E { idle.setReg 1 0x03 with keysPrev := 0x0008 } (fun t => t.pc == 0x202) := by decide

/-- T131, T133. -/
theorem test_sknp :
    runs 0xE1A1 { idle.setReg 1 0x13 with keysNow := 0x0008 } (fun t => t.pc == 0x202) ∧
    runs 0xE1A1 (idle.setReg 1 0x03) (fun t => t.pc == 0x204) := by decide

/-- T134, T135: the smallest released key; a fresh press does not end the wait. -/
theorem test_ldVxK :
    runs 0xF50A { idle with keysPrev := 0x0288, keysNow := 0x0200 }
      (fun t => t.reg 5 == 3 && t.pc == 0x202) ∧
    runs 0xF50A { idle.setReg 5 0xEE with keysNow := 0x0008 }
      (fun t => t.reg 5 == 0xEE && t.pc == 0x200) := by decide

/-- T138, T139, T140. -/
theorem test_timer_transfers :
    runs 0xF107 { idle with DT := 0x2A } (fun t => t.reg 1 == 0x2A) ∧
    runs 0xF115 (idle.setReg 1 0x3C) (fun t => t.DT == 0x3C) ∧
    runs 0xF118 (idle.setReg 1 0x02) (fun t => t.ST == 0x02 && !t.tone) := by decide

/-! ## Tick and reset -/

/-- T150, T152: in the tick that takes `ST` to 0 the gate is still on, in the next it is off. -/
theorem test_timer_phase :
    next (tick 0 { idle.withFetchWord 16 0x1200 with DT := 1, ST := 1 })
      (fun t => t.DT == 0 && t.ST == 0 && t.tone) ∧
    next (tick 0 { idle.withFetchWord 16 0x1200 with tone := true })
      (fun t => t.DT == 0 && t.ST == 0 && !t.tone) := by decide

/-- T153, S9: one decrement per tick, whatever `IPT`. -/
theorem test_cadence :
    next (tick 0 { idle2.withFetchWord 16 0x1200 with DT := 5 }) (fun t => t.DT == 4) := by decide

/-- T154, T156: the latches, and the fault that cuts a tick short. -/
theorem test_key_latches :
    next (tick 0x0008 (idle.withFetchWord 16 0x1200))
      (fun t => t.keysNow == 0x0008 && t.keysPrev == 0x0008) ∧
    next (tick 0x0008 (idle2.withFetchWord 16 0x6001))
      (fun t => t.fault == some ⟨.unknownOpcode, 0x0202, 0x0000⟩ && t.reg 0 == 1 && t.keysPrev == 0) := by
  decide

/-- T155: a halted machine ignores the step. -/
theorem test_halted :
    next (step { idle with fault := some ⟨.unknownOpcode, 0x0200, 0x0000⟩, DT := 5, tone := true })
      (fun t => t.DT == 5 && t.tone && t.keysNow == 0) := by decide

/-- The first step after reset runs the word placed at 0x200, whatever the free parameters are; with
nothing placed it faults. -/
theorem test_first_step :
    next (step (State.reset.withFetchWord 16 0x6A2B)) (fun t => t.reg 0xA == 0x2B && t.pc == 0x202) ∧
    next (step State.reset) (fun t => t.fault == some ⟨.unknownOpcode, 0x0200, 0x0000⟩) := by decide

/-- R292 and R291: a ROM byte, the byte after the ROM, a font byte (R33, glyph 7). -/
theorem test_load : (State.load plain [0xA2, 0x14]).readByte 0x201 = 0x14 ∧
    (State.load plain [0xA2, 0x14]).readByte 0x202 = 0x00 ∧
    (State.load plain [0xA2, 0x14]).readByte 0x074 = 0x10 := by decide

/-- R39 and D1: what the host sees of a state whose stack and memory hold something. -/
theorem test_debug_view :
    ({ poke 0x300 0xAA idle with stack := [0x0204] } : State).debugView.stack = [0x0204] ∧
    ({ poke 0x300 0xAA idle with stack := [0x0204] } : State).report.stack = [0x0204] ∧
    (poke 0x300 0xAA idle).debugView.mem[0x300] = 0xAA := by
  refine ⟨rfl, rfl, ?_⟩
  rw [State.debugView_mem _ 0x300 (by decide)]
  decide

/-! ## Witnesses: what meets the hypotheses of the statements -/

theorem witness_EncodeInvertsDecode : decodeWord 0x8127 = .ok (.subnReg 1 2) := rfl

/-- A word that decodes; a row and an instance of it; a word of no row, next to one. -/
theorem witness_DecodesByTheOpcodeMap :
    decodeWord 0x812E = .ok (.shlReg 1 2) ∧
    ((⟨0x800E, 0xF00F⟩ : OpRow) ∈ opcodeMap ∧ OpRow.admits ⟨0x800E, 0xF00F⟩ 0x812E = true) ∧
    (∀ r ∈ opcodeMap, r.admits 0x812F = false) := ⟨rfl, by decide, by decide⟩

/-- The highest address a word is fetched from. -/
theorem witness_FetchIsBigEndian :
    (State.withFetchWord { idle with pc := 0xFFE } 16 0x1234).fetchWord = some 0x1234 := by decide

theorem witness_FetchOutOfBoundsFaults :
    (({ idle with pc := 0xFFF } : State).pc.toNat + 1 > 0xFFF) ∧
    ({ idle with pc := 0xFFE } : State).fetchWord ≠ none := by decide

theorem witness_UnmatchedWordRaisesUnknownOpcode :
    idle.fetchWord = some 0x0000 ∧ (∀ r ∈ opcodeMap, r.admits 0x0000 = false) ∧
    idle.pc = 0x200 ∧ idle.readByte 0x200 = 0x00 ∧ idle.readByte 0x201 = 0x00 := by decide

/-- The state the next witness runs. -/
def atLoad : State := idle.withFetchWord 16 0x6A2B

theorem witness_StepRunsTheDecodedInstruction :
    atLoad.halted = false ∧ atLoad.pc.toNat + 1 ≤ 0xFFF ∧
    decodeWord (wordOfBytes (atLoad.readByte atLoad.pc.toNat) (atLoad.readByte (atLoad.pc.toNat + 1))) =
      .ok (.ldByte 0xA 0x2B) ∧
    ∃ t, exec (.ldByte 0xA 0x2B) atLoad.beforeSlot = .next t :=
  ⟨by decide, by decide, rfl, _, rfl⟩

/-- A halted state. -/
def stopped : State := { idle with fault := some ⟨.stackUnderflow, 0x0200, 0x00EE⟩ }

/-- The five cases: first slot, later slot, halted, a slot that is not the last, the last slot. -/
theorem witness_SlotsStandInTheirTick :
    idle2.slot = 0 ∧ ({ idle2 with slot := 1 } : State).slot ≠ 0 ∧ stopped.halted = true ∧
    (idle2.halted = false ∧ idle2.slot + 1 < idle2.cfg.ipt) ∧
    (({ idle2 with slot := 1 } : State).halted = false ∧
      ({ idle2 with slot := 1 } : State).cfg.ipt ≤ ({ idle2 with slot := 1 } : State).slot + 1) := by
  decide

theorem witness_HaltedMachineIgnoresTicks : stopped.halted = true := rfl

theorem witness_RetPopsOrUnderflows :
    ({ idle with stack := [0x0310, 0x0204] } : State).stack = 0x0310 :: [0x0204] ∧ idle.stack = [] := by
  decide

theorem witness_RetReturnsAfterItsCall :
    ∃ t, exec (.call 0x300) idle = .next t ∧ ({ idle with stack := [0x0202] } : State).stack = t.stack :=
  ⟨_, rfl, by decide⟩

/-- A destination that is not `VF`, for the guarded clause of the statement. -/
theorem witness_AddSetsCarry : (1 : Reg) ≠ 0xF := by decide
/-- As above. -/
theorem witness_SubtractionsSetNoBorrow : (0xE : Reg) ≠ 0xF := by decide
/-- As above. -/
theorem witness_ShiftsReadVy : (0 : Reg) ≠ 0xF := by decide

theorem witness_RndMasksTheSample :
    ({ idle with rndIn := [0xA7] } : State).rndIn = 0xA7 :: [] ∧ idle.rndIn = [] := by decide

/-- The highest `I` at which the digits fit, and the next. -/
theorem witness_BcdStoresThreeDigits :
    (State.memOk { idle with I := 0xFFD } ∧ ({ idle with I := 0xFFD } : State).I.toNat + 2 ≤ 0xFFF) ∧
    ({ idle with I := 0xFFE } : State).I.toNat + 2 > 0xFFF := ⟨⟨rfl, by decide⟩, by decide⟩

/-- All sixteen registers at the highest `I` at which they fit, and the next. -/
theorem witness_StoreRegistersWritesTheRange :
    (State.memOk { idle with I := 0xFF0 } ∧
      ({ idle with I := 0xFF0 } : State).I.toNat + (0xF : Reg).toNat ≤ 0xFFF) ∧
    ({ idle with I := 0xFF1 } : State).I.toNat + (0xF : Reg).toNat > 0xFFF :=
  ⟨⟨rfl, by decide⟩, by decide⟩

theorem witness_LoadRegistersReadsTheRange :
    ({ idle with I := 0xFFF } : State).I.toNat + (0 : Reg).toNat ≤ 0xFFF ∧
    ({ idle with I := 0x1000 } : State).I.toNat + (0 : Reg).toNat > 0xFFF := by decide

theorem witness_MemoryHoldsWhatWasWritten :
    idle.memOk ∧ (∃ t, idle.memWrite 0xFFE [1, 2] = some t) ∧ (∃ t, idle.memWrite 0x2000 [] = some t) ∧
    idle.memWrite 0xFFF [1, 2] = none := ⟨rfl, ⟨_, rfl⟩, ⟨_, rfl⟩, rfl⟩

/-- T100's store over the next word; the highest `I` of each form, with the highest fetch address. -/
theorem witness_NextFetchSeesTheStore :
    State.memOk { idle with I := 0x202 } ∧
    ({ idle with I := 0x202 } : State).I.toNat + (1 : Reg).toNat ≤ 0xFFF ∧
    (State.memOk { idle with I := 0xFFF } ∧
      ({ idle with I := 0xFFF } : State).I.toNat + (0 : Reg).toNat ≤ 0xFFF) ∧
    (State.memOk { idle with I := 0xFFD } ∧ ({ idle with I := 0xFFD } : State).I.toNat + 2 ≤ 0xFFF) ∧
    (0xFFE : Word).toNat + 1 ≤ 0xFFF :=
  ⟨rfl, by decide, ⟨rfl, by decide⟩, ⟨rfl, by decide⟩, by decide⟩

/-- T100: the fetch after the store gives the word just stored, 0x632A. A store of one byte, over the
second byte of the next word, leaves its first. -/
theorem test_store_then_fetch :
    runs 0xF155 { (idle.setReg 0 0x63).setReg 1 0x2A with I := 0x202 }
      (fun t => t.fetchWord == some 0x632A) ∧
    runs 0xF055 { poke 0x202 0x12 (idle.setReg 0 0x63) with I := 0x203 }
      (fun t => t.fetchWord == some 0x1263) := by decide

/-- `n = 0` with `I` out of range, and one byte at the top of memory. -/
theorem witness_DrwXorsTheSpriteAndReportsCollision :
    ((0 : BitVec 4) = 0 ∨ ({ idle with I := 0xFFFF } : State).I.toNat + (0 : BitVec 4).toNat - 1 ≤ 0xFFF) ∧
    ((1 : BitVec 4) = 0 ∨ ({ idle with I := 0xFFF } : State).I.toNat + (1 : BitVec 4).toNat - 1 ≤ 0xFFF) := by
  decide

theorem witness_DrwFaultsOnItsWholeRange :
    1 ≤ (2 : BitVec 4).toNat ∧ ({ idle with I := 0xFFF } : State).I.toNat + (2 : BitVec 4).toNat - 1 > 0xFFF := by
  decide

/-- S4: both draws answer, on a dark display. -/
theorem witness_DrawingTwiceRestoresTheDisplay :
    (0 : Reg) ≠ 0xF ∧ (1 : Reg) ≠ 0xF ∧
    ((1 : BitVec 4) = 0 ∨ ({ idle with I := 0x300 } : State).I.toNat + (1 : BitVec 4).toNat - 1 ≤ 0xFFF) ∧
    (∃ t, exec (.drw 0 1 1) { idle with I := 0x300 } = .next t ∧ ∃ u, exec (.drw 0 1 1) t = .next u) ∧
    ∀ r c, State.pixel { idle with I := 0x300 } r c = false := by
  refine ⟨by decide, by decide, by decide, ⟨_, rfl, _, rfl⟩, fun r c => ?_⟩
  unfold State.pixel
  split
  · rename_i h
    have e : ({ idle with I := 0x300 } : State).disp[r]'h.1 = 0 :=
      Vector.getElem_replicate (n := 32) (a := (0 : PixelRow)) h.1
    rw [e]; simp
  · rfl

/-- Keys 3 and 7 released, 9 still held (3 is the smallest); no key released. -/
theorem witness_KeyWaitTakesTheSmallestRelease :
    let s : State := { idle with keysPrev := 0x0288, keysNow := 0x0200 }
    (3 < 16 ∧ s.keysPrev.getLsbD 3 = true ∧ s.keysNow.getLsbD 3 = false ∧
      ∀ j, j < 3 → ¬(s.keysPrev.getLsbD j = true ∧ s.keysNow.getLsbD j = false)) ∧
    ∀ k, k < 16 → ¬(idle.keysPrev.getLsbD k = true ∧ idle.keysNow.getLsbD k = false) := by decide

theorem witness_KeyWaitSpinsThroughTheTick :
    let s : State := { idle.withFetchWord 16 0xF50A with keysPrev := 0x0008, keysNow := 0x0008 }
    s.halted = false ∧ s.fetchWord = some 0xF50A ∧ decodeWord 0xF50A = .ok (.ldVxK 5) ∧
    ∀ k, k < 16 → ¬(s.keysPrev.getLsbD k = true ∧ s.keysNow.getLsbD k = false) :=
  ⟨by decide, by decide, rfl, by decide⟩

theorem witness_TimersCountOncePerTick :
    idle.slot = 0 ∧ ({ idle2 with slot := 1 } : State).slot ≠ 0 ∧ (∃ t, exec (.ldDT 1) idle = .next t) ∧
    ∃ t, exec (.ldST 1) idle = .next t := ⟨rfl, by decide, ⟨_, rfl⟩, ⟨_, rfl⟩⟩

/-- A tick that answers a state that is not halted, and one that answers a halted one. -/
theorem witness_KeysAreLatchedOncePerTick :
    idle.halted = false ∧
    (∃ t, tick 0x0008 (idle.withFetchWord 16 0x1200) = .next t ∧ t.halted = false) ∧
    ∃ t, tick 0x0008 idle = .next t ∧ t.halted = true :=
  ⟨rfl, ⟨_, rfl, by decide⟩, ⟨_, rfl, by decide⟩⟩

theorem witness_ToneFollowsTheSoundTimer : ∃ t, idle.halted = false ∧ tick 0 idle = .next t :=
  ⟨_, rfl, rfl⟩

theorem witness_StepsMakeUpTheTick : idle2.halted = false ∧ idle2.slot = 0 := by decide

theorem witness_SelfJumpOnlyCountsAndLatches :
    let s := idle.withFetchWord 16 0x1200
    s.halted = false ∧ s.fetchWord = some 0x1200 ∧ decodeWord 0x1200 = .ok (.jp 0x200) ∧
    (0x200 : Addr12).toNat = s.pc.toNat := ⟨by decide, by decide, rfl, by decide⟩

/-- The boundary on both sides, for both capacities. -/
theorem witness_RomIsCopiedTo0x200 :
    (List.replicate 3584 (0 : Byte)).length ≤ plain.capacity ∧ ([] : List Byte).length ≤ plain.capacity ∧
    (List.replicate 3232 (0 : Byte)).length ≤ reserved.capacity ∧
    plain.reservedTop = .none ∧ reserved.reservedTop = .bytes352 := by
  simp [plain, reserved, Config.capacity, Config.reservedBytes]

theorem witness_OversizedRomIsRejected :
    plain.capacity < (List.replicate 3585 (0 : Byte)).length ∧
    reserved.capacity < (List.replicate 3233 (0 : Byte)).length := by
  simp [plain, reserved, Config.capacity, Config.reservedBytes]

theorem witness_InstructionsWriteOnlyTheirParts : ∃ t, exec (.addI 1) idle = .next t := ⟨_, rfl⟩

/-- Each of the five instructions that can fault, at the edge of its condition, and one in range. -/
theorem witness_FaultsArePreciseAndOnlyWhereNamed :
    faultOf .ret idle = some .stackUnderflow ∧
    faultOf (.ldB 1) { idle with I := 0xFFE } = some .memoryAccessViolation ∧
    faultOf (.stRegs 0xF) { idle with I := 0xFF1 } = some .memoryAccessViolation ∧
    faultOf (.ldRegs 0) { idle with I := 0x1000 } = some .memoryAccessViolation ∧
    faultOf (.drw 0 1 2) { idle with I := 0xFFF } = some .memoryAccessViolation ∧
    faultOf (.drw 0 1 0) { idle with I := 0xFFFF } = none := by decide

theorem witness_ParametersAreConstant :
    (∃ t, step idle = .next t) ∧ ∃ t, tick 0 idle = .next t := ⟨⟨_, rfl⟩, ⟨_, rfl⟩⟩

theorem witness_OnlyResetClearsTheLatch :
    stopped.fault = some ⟨.stackUnderflow, 0x0200, 0x00EE⟩ ∧ ∃ t, runSteps 2 stopped = .next t :=
  ⟨rfl, _, rfl⟩

theorem witness_StepsKeepTheInvariant : idle.Inv ∧ ∃ t, step idle = .next t :=
  ⟨⟨rfl, by unfold State.pcOk; decide, fun _ h => (List.not_mem_nil h).elim, by unfold State.slotOk; decide⟩,
    _, rfl⟩

end Sys2Proof.Tests
end

section
/-! PROOFS. The family of spec/10_state.md: what an instruction writes and what it leaves alone (O47),
and the invariant of R25 and R26 at reset and over every step (O52, O53). -/

namespace Sys2Proof.Machine

/-! ## Frames: each update of the state writes its own part -/

/-- From `s` to `t` only the parts `ps`, and of the general registers only `rs`, may have changed. To
what a claim states about memory (read byte by byte) it adds that the list itself is the same, which
keeping the canonical form needs. -/
structure Frame (ps : List Part) (rs : List Reg) (s t : State) : Prop where
  parts : UnchangedExcept ps s t
  regs : RegsUnchangedExcept rs s t
  mem : Part.memory ∉ ps → t.mem = s.mem

namespace Frame

variable {ps : List Part} {rs : List Reg} {s t : State}

theorem refl : Frame ps rs s s where
  parts p _ := by cases p <;> simp [Part.same]
  regs _ _ := rfl
  mem _ := rfl

theorem setReg (f : Frame ps rs s t) {x : Reg} {v : Byte} (hp : Part.regs ∈ ps := by simp [writtenParts])
    (hx : x ∈ rs := by simp [writtenRegs]) : Frame ps rs s (t.setReg x v) where
  parts p hn := by
    cases p with
    | regs => exact absurd hp hn
    | _ => exact f.parts _ hn
  regs r hr := by
    have hne : r ≠ x := fun e => hr (e ▸ hx)
    rw [State.setReg_reg_of_ne _ _ _ _ hne]
    exact f.regs r hr
  mem := f.mem

theorem setPc (f : Frame ps rs s t) {v : Word}
    (hp : Part.pc ∈ ps := by simp [writtenParts]) : Frame ps rs s (t.setPc v) where
  parts p hn := by
    cases p with
    | pc => exact absurd hp hn
    | _ => exact f.parts _ hn
  regs := f.regs
  mem := f.mem

theorem setI (f : Frame ps rs s t) {v : Word}
    (hp : Part.index ∈ ps := by simp [writtenParts]) : Frame ps rs s (t.setI v) where
  parts p hn := by
    cases p with
    | index => exact absurd hp hn
    | _ => exact f.parts _ hn
  regs := f.regs
  mem := f.mem

theorem setStack (f : Frame ps rs s t) {l : List Word}
    (hp : Part.stack ∈ ps := by simp [writtenParts]) : Frame ps rs s { t with stack := l } where
  parts p hn := by
    cases p with
    | stack => exact absurd hp hn
    | _ => exact f.parts _ hn
  regs := f.regs
  mem := f.mem

theorem raise (f : Frame ps rs s t) {k : Fault} {op : Word}
    (hp : Part.fault ∈ ps := by simp [writtenParts]) : Frame ps rs s (t.raise k op) where
  parts p hn := by
    cases p with
    | fault => exact absurd hp hn
    | _ => exact f.parts _ hn
  regs := f.regs
  mem := f.mem

theorem consumeRnd (f : Frame ps rs s t)
    (hp : Part.rndPort ∈ ps := by simp [writtenParts]) : Frame ps rs s t.consumeRnd where
  parts p hn := by
    cases p with
    | rndPort => exact absurd hp hn
    | _ => exact f.parts _ hn
  regs := f.regs
  mem := f.mem

theorem setDisp (f : Frame ps rs s t) {d : Vector PixelRow 32}
    (hp : Part.display ∈ ps := by simp [writtenParts]) : Frame ps rs s { t with disp := d } where
  parts p hn := by
    cases p with
    | display => exact absurd hp hn
    | _ => exact f.parts _ hn
  regs := f.regs
  mem := f.mem

theorem setDT (f : Frame ps rs s t) {v : Byte}
    (hp : Part.delay ∈ ps := by simp [writtenParts]) : Frame ps rs s { t with DT := v } where
  parts p hn := by
    cases p with
    | delay => exact absurd hp hn
    | _ => exact f.parts _ hn
  regs := f.regs
  mem := f.mem

theorem setST (f : Frame ps rs s t) {v : Byte}
    (hp : Part.sound ∈ ps := by simp [writtenParts]) : Frame ps rs s { t with ST := v } where
  parts p hn := by
    cases p with
    | sound => exact absurd hp hn
    | _ => exact f.parts _ hn
  regs := f.regs
  mem := f.mem

theorem setMem (f : Frame ps rs s t) {m : Memory}
    (hp : Part.memory ∈ ps := by simp [writtenParts]) : Frame ps rs s { t with mem := m } where
  parts p hn := by
    cases p with
    | memory => exact absurd hp hn
    | _ => exact f.parts _ hn
  regs := f.regs
  mem hn := absurd hp hn

/-- Loading the registers below `n` is `n` register writes. -/
theorem loadRegs {n : Nat} (hn : ∀ k < n, BitVec.ofNat 4 k ∈ rs)
    (hp : Part.regs ∈ ps := by simp [writtenParts]) : Frame ps rs s (s.loadRegs n) := by
  induction n with
  | zero => exact refl
  | succ k ih => exact (ih fun j hj => hn j (by omega)).setReg hp (hn k (by omega))

end Frame

/-! ## The instructions with more than one way to end -/

/-- RET pops the stack into `pc`, or the stack is empty and it faults (R141). -/
theorem execRet_cases {s t : State} (h : execRet s = .next t) :
    (∃ top rest, s.stack = top :: rest ∧ t = State.setPc { s with stack := rest } top) ∨
    t = s.raise .stackUnderflow (encode .ret) := by
  unfold execRet at h
  split at h
  case h_1 => exact .inr (Host.Outcome.next.inj h).symm
  case h_2 top rest e => exact .inl ⟨top, rest, e, (Host.Outcome.next.inj h).symm⟩

/-- DRW changes the display, sets `VF` and advances, or it faults (R212 to R216). -/
theorem execDrw_cases {x y n : BitVec 4} {s t : State} (h : execDrw x y n s = .next t) :
    (∃ d v, t = (State.setReg { s with disp := d } regF v).setPc (s.pc + 2)) ∨
    t = s.raise .memoryAccessViolation (encode (.drw x y n)) := by
  unfold execDrw at h
  split at h
  case h_1 => exact .inl ⟨_, _, (Host.Outcome.next.inj h).symm⟩
  case h_2 => exact .inr (Host.Outcome.next.inj h).symm

/-- LD B stores bytes and advances, or it faults (R193). -/
theorem execLdB_cases {x : Reg} {s t : State} (h : execLdB x s = .next t) :
    (∃ a bs, t = State.setPc { s with mem := Memory.writeList s.cfg s.mem a bs } (s.pc + 2)) ∨
    t = s.raise .memoryAccessViolation (encode (.ldB x)) := by
  unfold execLdB at h
  rcases s.memWrite_cases s.I.toNat (bcdDigits (s.reg x)) with ⟨-, e⟩ | ⟨-, e⟩ <;> rw [e] at h
  · exact .inl ⟨_, _, (Host.Outcome.next.inj h).symm⟩
  · exact .inr (Host.Outcome.next.inj h).symm

/-- LD [I],Vx stores bytes and advances, or it faults (R194). -/
theorem execStRegs_cases {x : Reg} {s t : State} (h : execStRegs x s = .next t) :
    (∃ a bs, t = State.setPc { s with mem := Memory.writeList s.cfg s.mem a bs } (s.pc + 2)) ∨
    t = s.raise .memoryAccessViolation (encode (.stRegs x)) := by
  unfold execStRegs at h
  rcases s.memWrite_cases s.I.toNat (s.regsBelow (x.toNat + 1)) with ⟨-, e⟩ | ⟨-, e⟩ <;> rw [e] at h
  · exact .inl ⟨_, _, (Host.Outcome.next.inj h).symm⟩
  · exact .inr (Host.Outcome.next.inj h).symm

/-- LD Vx,[I] loads `V0` to `Vx` and advances, or it faults (R195). -/
theorem execLdRegs_cases {x : Reg} {s t : State} (h : execLdRegs x s = .next t) :
    t = (s.loadRegs (x.toNat + 1)).advance ∨
    t = s.raise .memoryAccessViolation (encode (.ldRegs x)) := by
  unfold execLdRegs at h
  split at h
  case isTrue => exact .inl (Host.Outcome.next.inj h).symm
  case isFalse => exact .inr (Host.Outcome.next.inj h).symm

/-- LD Vx,K takes a released key and advances, or it changes nothing (R233). -/
theorem execLdVxK_cases {x : Reg} {s t : State} (h : execLdVxK x s = .next t) :
    (∃ v, t = (s.setReg x v).setPc (s.pc + 2)) ∨ t = s := by
  obtain rfl := Host.Outcome.next.inj h
  split
  case h_1 => exact .inl ⟨_, rfl⟩
  case h_2 => exact .inr rfl

/-! ## What an instruction writes -/

/-- Every instruction keeps within the parts and registers the spec lists for it. -/
theorem exec_frame {i : Instr} {s t : State} (h : exec i s = .next t) :
    Frame (writtenParts i) (writtenRegs i) s t := by
  cases i with
  | cls => cases h; exact Frame.refl.setDisp.setPc
  | ret =>
    rcases execRet_cases h with ⟨top, rest, -, rfl⟩ | rfl
    · exact Frame.refl.setStack.setPc
    · exact Frame.refl.raise
  | jp | jpV0 => cases h; exact Frame.refl.setPc
  | call => cases h; exact Frame.refl.setStack.setPc
  | seByte | sneByte | seReg | sneReg | skp | sknp =>
    cases h
    rw [State.advanceSkippingIf_eq]
    exact Frame.refl.setPc
  | ldByte | addByte | ldReg | ldVxDT =>
    cases h
    exact Frame.refl.setReg.setPc
  | orReg | andReg | xorReg | addReg | subReg | shrReg | subnReg | shlReg =>
    cases h
    exact Frame.refl.setReg.setReg.setPc
  | rnd =>
    cases h
    exact Frame.refl.consumeRnd.setReg.setPc
  | ldI | ldF =>
    cases h
    exact Frame.refl.setI.setPc
  | addI =>
    cases h
    exact Frame.refl.setI.setReg.setPc
  | ldDT => cases h; exact Frame.refl.setDT.setPc
  | ldST => cases h; exact Frame.refl.setST.setPc
  | ldVxK =>
    rcases execLdVxK_cases h with ⟨v, rfl⟩ | rfl
    · exact Frame.refl.setReg.setPc
    · exact Frame.refl
  | drw =>
    rcases execDrw_cases h with ⟨d, v, rfl⟩ | rfl
    · exact Frame.refl.setDisp.setReg.setPc
    · exact Frame.refl.raise
  | ldB =>
    rcases execLdB_cases h with ⟨a, bs, rfl⟩ | rfl
    · exact Frame.refl.setMem.setPc
    · exact Frame.refl.raise
  | stRegs =>
    rcases execStRegs_cases h with ⟨a, bs, rfl⟩ | rfl
    · exact Frame.refl.setMem.setPc
    · exact Frame.refl.raise
  | ldRegs x =>
    have hmem : ∀ k < x.toNat + 1, BitVec.ofNat 4 k ∈ writtenRegs (.ldRegs x) := fun k hk =>
      List.mem_map_of_mem (List.mem_range.2 hk)
    rcases execLdRegs_cases h with rfl | rfl
    · exact (Frame.loadRegs hmem).setPc
    · exact Frame.refl.raise

/-- Settles O47: `exec_frame` says it with one clause more. -/
theorem instructionsWriteOnlyTheirParts : Obligations.InstructionsWriteOnlyTheirParts :=
  fun _ _ _ h => ⟨(exec_frame h).parts, (exec_frame h).regs⟩

/-! ## Where an instruction leaves `pc` -/

/-- The values an instruction can give `pc`: the ways to go on of spec/41_flow.md, and `pc0` itself
for a fault (R125) and for a key wait (R233). -/
inductive State.NextPc (s : State) : Word → Prop where
  | stay : s.NextPc s.pc
  | advance : s.NextPc (s.pc + 2)
  | skip : s.NextPc (s.pc + 4)
  | jump (nnn : Addr12) : s.NextPc (zextAddr nnn)
  | jumpV0 (nnn : Addr12) (v : Byte) : s.NextPc (zextAddr nnn + zextByte v)
  | ret (top : Word) (h : top ∈ s.stack) : s.NextPc top

/-- A skipping instruction advances, once or twice (R149). -/
theorem State.NextPc.advanceSkippingIf (s : State) (c : Bool) :
    s.NextPc (s.advanceSkippingIf c).pc := by
  rw [State.advanceSkippingIf_eq]
  cases c
  · exact .advance
  · exact .skip

theorem exec_nextPc {i : Instr} {s t : State} (h : exec i s = .next t) : s.NextPc t.pc := by
  cases i with
  | ret =>
    rcases execRet_cases h with ⟨top, rest, e, rfl⟩ | rfl
    · exact .ret top (by simp [e])
    · exact .stay
  | jp | call => cases h; exact .jump _
  | jpV0 => cases h; exact .jumpV0 _ _
  | seByte | sneByte | seReg | sneReg | skp | sknp => cases h; exact .advanceSkippingIf _ _
  | cls | ldByte | addByte | ldReg | orReg | andReg | xorReg | addReg | subReg | shrReg | subnReg
  | shlReg | rnd | ldI | addI | ldF | ldVxDT | ldDT | ldST => cases h; exact .advance
  | ldVxK =>
    rcases execLdVxK_cases h with ⟨v, rfl⟩ | rfl
    · exact .advance
    · exact .stay
  | drw =>
    rcases execDrw_cases h with ⟨d, v, rfl⟩ | rfl
    · exact .advance
    · exact .stay
  | ldB =>
    rcases execLdB_cases h with ⟨a, bs, rfl⟩ | rfl
    · exact .advance
    · exact .stay
  | stRegs =>
    rcases execStRegs_cases h with ⟨a, bs, rfl⟩ | rfl
    · exact .advance
    · exact .stay
  | ldRegs x =>
    rcases execLdRegs_cases h with rfl | rfl
    · rw [State.loadRegs_eq]
      exact .advance
    · exact .stay

/-- From a fetched instruction none of these exceeds 0x10FE, which JP V0 reaches (R25). -/
theorem State.NextPc.le {s : State} {p : Word} (n : s.NextPc p) (hf : s.pc.toNat + 1 ≤ 0xFFF)
    (hk : s.stackOk) : p.toNat ≤ 0x10FE := by
  cases n with
  | stay => omega
  | advance => bv_omega
  | skip => bv_omega
  | jump nnn => rw [zextAddr_toNat]; omega
  | jumpV0 nnn v => rw [BitVec.toNat_add, zextAddr_toNat, zextByte_toNat]; omega
  | ret top h => have := hk p h; omega

/-! ## The parts of the invariant over an instruction -/

theorem exec_keeps_pcOk {i : Instr} {s t : State} (h : exec i s = .next t)
    (hf : s.pc.toNat + 1 ≤ 0xFFF) (hk : s.stackOk) : t.pcOk :=
  (exec_nextPc h).le hf hk

/-- CALL pushes the address after itself, RET pops, and no other instruction writes the stack. -/
theorem exec_keeps_stackOk {i : Instr} {s t : State} (h : exec i s = .next t)
    (hf : s.pc.toNat + 1 ≤ 0xFFF) (hk : s.stackOk) : t.stackOk := by
  have kept : Part.stack ∉ writtenParts i → t.stackOk := fun hn => by
    have e : t.stack = s.stack := (exec_frame h).parts _ hn
    rwa [State.stackOk, e]
  cases i with
  | call nnn =>
    cases h
    have hret : 0x0002 ≤ (s.pc + 2).toNat ∧ (s.pc + 2).toNat ≤ 0x1000 := by bv_omega
    exact List.forall_mem_cons.2 ⟨hret, hk⟩
  | ret =>
    rcases execRet_cases h with ⟨top, rest, e, rfl⟩ | rfl
    · exact fun r hr => hk r (e ▸ List.mem_cons_of_mem top hr)
    · exact hk
  | _ => exact kept (by simp [writtenParts])

/-- The two stores write through `Memory.writeList`, which keeps the canonical form, and no other
instruction writes memory. -/
theorem exec_keeps_memOk {i : Instr} {s t : State} (h : exec i s = .next t) (hm : s.memOk) :
    t.memOk := by
  have kept : Part.memory ∉ writtenParts i → t.memOk := fun hn => by
    have hcfg : t.cfg = s.cfg := (exec_frame h).parts .cfg (by cases i <;> simp [writtenParts])
    rwa [State.memOk, (exec_frame h).mem hn, hcfg]
  cases i with
  | ldB x =>
    rcases execLdB_cases h with ⟨a, bs, rfl⟩ | rfl
    · exact Memory.writeList_wf _ _ _ hm
    · exact hm
  | stRegs x =>
    rcases execStRegs_cases h with ⟨a, bs, rfl⟩ | rfl
    · exact Memory.writeList_wf _ _ _ hm
    · exact hm
  | _ => exact kept (by simp [writtenParts])

/-! ## The invariant over a step -/

/-- An instruction step executes an instruction whose two bytes exist, or it raises a fault (R128). -/
theorem instructionStep_cases {s t : State} (h : instructionStep s = .next t) :
    (∃ i, s.pc.toNat + 1 ≤ 0xFFF ∧ exec i s = .next t) ∨ ∃ k op, t = s.raise k op := by
  rw [instructionStep, State.fetchWord_eq] at h
  by_cases hf : s.pc.toNat + 1 ≤ 0xFFF
  · simp only [if_pos hf] at h
    split at h
    case h_1 i _ => exact .inl ⟨i, hf, h⟩
    case h_2 => exact .inr ⟨_, _, (Host.Outcome.next.inj h).symm⟩
  · simp only [if_neg hf] at h
    exact .inr ⟨_, _, (Host.Outcome.next.inj h).symm⟩

/-- A step of a halted machine changes nothing; any other is an instruction step between the phases
of its tick. -/
theorem step_cases {s t : State} (h : step s = .next t) :
    (s.halted = true ∧ t = s) ∨
    ∃ u, instructionStep s.beforeSlot = .next u ∧ t = u.afterSlot := by
  unfold step at h
  split at h
  case isTrue hh => exact .inl ⟨hh, (Host.Outcome.next.inj h).symm⟩
  case isFalse =>
    split at h
    case h_1 u hu => exact .inr ⟨u, hu, (Host.Outcome.next.inj h).symm⟩
    case h_2 => cases h
    case h_3 => cases h

/-- The invariant without the place in the tick, which no instruction writes. -/
theorem instructionStep_keeps_inv {s t : State} (h : instructionStep s = .next t) (hm : s.memOk)
    (hp : s.pcOk) (hk : s.stackOk) : t.memOk ∧ t.pcOk ∧ t.stackOk := by
  rcases instructionStep_cases h with ⟨i, hf, hi⟩ | ⟨k, op, rfl⟩
  · exact ⟨exec_keeps_memOk hi hm, exec_keeps_pcOk hi hf hk, exec_keeps_stackOk hi hf hk⟩
  · exact ⟨hm, hp, hk⟩

/-- Settles O53: the phases around the instruction touch neither memory, `pc` nor the stack, and
`afterSlot` always gives a place in the tick. -/
theorem stepsKeepTheInvariant : Obligations.StepsKeepTheInvariant := by
  rintro s t ⟨hm, hp, hk, hs⟩ h
  rcases step_cases h with ⟨-, rfl⟩ | ⟨u, hu, rfl⟩
  · exact ⟨hm, hp, hk, hs⟩
  · obtain ⟨um, up, uk⟩ := instructionStep_keeps_inv hu hm hp hk
    exact ⟨um, up, uk, u.afterSlot_slotOk⟩

/-! ## The invariant at reset -/

theorem State.resetWith_inv (c : Config) : (State.resetWith c).Inv :=
  ⟨rfl, by simp [State.pcOk, State.resetWith], by simp [State.stackOk, State.resetWith],
    Nat.succ_pos _⟩

/-- Settles O52: the ROM is copied through `Memory.writeList`, and a rejected one sets the latch
alone. -/
theorem resetMeetsTheInvariant : Obligations.ResetMeetsTheInvariant := by
  refine ⟨State.resetWith_inv _, fun c rom => ?_⟩
  obtain ⟨hm, hp, hk, hs⟩ := State.resetWith_inv c
  unfold State.load
  split
  · exact ⟨Memory.writeList_wf c _ rom hm, hp, hk, hs⟩
  · exact ⟨hm, hp, hk, hs⟩

end Sys2Proof.Machine
end

section
/-! PROOFS. The family of spec/20_memory.md: the byte order and the bound of the fetch (O5, O6), memory
as storage (O29), and what the fetch after a store reads (O30). -/

namespace Sys2Proof

/-! ## The fields of a word made of two bytes (R62) -/

section WordOfBytes
variable (b0 b1 : Byte)

@[simp] theorem fieldN0_wordOfBytes : fieldN0 (wordOfBytes b0 b1) = b0.extractLsb' 4 4 :=
  BitVec.extractLsb'_append_eq_of_le (by decide)
@[simp] theorem fieldX_wordOfBytes : fieldX (wordOfBytes b0 b1) = b0.extractLsb' 0 4 :=
  BitVec.extractLsb'_append_eq_of_le (by decide)
@[simp] theorem fieldY_wordOfBytes : fieldY (wordOfBytes b0 b1) = b1.extractLsb' 4 4 :=
  BitVec.extractLsb'_append_eq_of_add_le (by decide)
@[simp] theorem fieldN_wordOfBytes : fieldN (wordOfBytes b0 b1) = b1.extractLsb' 0 4 :=
  BitVec.extractLsb'_append_eq_of_add_le (by decide)
@[simp] theorem fieldKK_wordOfBytes : fieldKK (wordOfBytes b0 b1) = b1 :=
  BitVec.extractLsb'_append_eq_right

/-- The one field that takes bits of both bytes. -/
@[simp] theorem fieldNNN_wordOfBytes :
    fieldNNN (wordOfBytes b0 b1) = b0.extractLsb' 0 4 ++ b1 := by
  rw [fieldNNN, wordOfBytes, BitVec.extractLsb'_append_eq_ite]
  simp

end WordOfBytes

end Sys2Proof

namespace Sys2Proof.Machine

/-! ## Fetch -/

/-- Settles O5: the word is that of the two bytes at `pc`, whose fields the lemmas above give. -/
theorem fetchIsBigEndian : Obligations.FetchIsBigEndian := by
  intro s op h
  rw [State.fetchWord_eq, Option.ite_none_right_eq_some] at h
  obtain ⟨-, h⟩ := h
  obtain rfl := Option.some.inj h
  exact ⟨rfl, fieldN0_wordOfBytes _ _, fieldX_wordOfBytes _ _, fieldY_wordOfBytes _ _,
    fieldN_wordOfBytes _ _, fieldNNN_wordOfBytes _ _, fieldKK_wordOfBytes _ _⟩

/-- There is no word to fetch exactly if its second byte does not exist (R65). -/
theorem State.fetchWord_eq_none_iff (s : State) : s.fetchWord = none ↔ s.pc.toNat + 1 > 0xFFF := by
  rw [State.fetchWord_eq, ite_eq_right_iff, gt_iff_lt, ← Nat.not_le]
  simp only [reduceCtorEq, imp_false]

/-- Without a word to fetch, the instruction step raises `FetchOutOfBounds` (R121, R251). -/
theorem instructionStep_of_fetchWord_none {s : State} (h : s.fetchWord = none) :
    instructionStep s = .next (s.raise .fetchOutOfBounds 0x0000) := by
  rw [instructionStep, h]

/-- Settles O6: the step of a state without a word to fetch is `State.raise`, which sets the latch alone. -/
theorem fetchOutOfBoundsFaults : Obligations.FetchOutOfBoundsFaults := fun s =>
  ⟨s.fetchWord_eq_none_iff,
    fun h => instructionStep_of_fetchWord_none (s.fetchWord_eq_none_iff.2 h)⟩

/-! ## The bytes after a store -/

theorem storedOver_stored (old : Nat → Byte) (base : Nat) (bs : List Byte) (k : Nat)
    (h : k < bs.length) : storedOver old base bs (base + k) = bs[k] := by
  rw [storedOver, dif_pos ⟨by omega, by omega⟩]
  simp

theorem storedOver_outside (old : Nat → Byte) (base : Nat) (bs : List Byte) (b : Nat)
    (h : ¬(base ≤ b ∧ b < base + bs.length)) : storedOver old base bs b = old b := dif_neg h

/-- A write is made exactly if its range exists, and then changes memory alone (R15, R66). -/
theorem State.memWrite_eq_some_iff {s t : State} {a : Nat} {bs : List Byte} :
    s.memWrite a bs = some t ↔
      rangeExists a bs.length = true ∧ t = { s with mem := Memory.writeList s.cfg s.mem a bs } := by
  rw [State.memWrite, Option.ite_none_right_eq_some, Option.some_inj, eq_comm (a := t)]

theorem State.memWrite_isSome_iff (s : State) (a : Nat) (bs : List Byte) :
    (s.memWrite a bs).isSome = true ↔ bs = [] ∨ a + bs.length - 1 ≤ 0xFFF := by
  rw [← List.length_eq_zero_iff, ← rangeExists_iff]
  rcases s.memWrite_cases a bs with ⟨hr, e⟩ | ⟨hr, e⟩ <;> simp [hr, e]

section Written
variable {s t : State} {a : Nat} {bs : List Byte}

/-- After a write, every byte is the one stored there, else the old one. The empty write may stand at
an address that does not exist. -/
theorem State.readByte_memWrite (w : s.memOk) (h : s.memWrite a bs = some t) (b : Nat) :
    t.readByte b = storedOver s.readByte a bs b := by
  obtain ⟨hr, rfl⟩ := State.memWrite_eq_some_iff.1 h
  cases bs with
  | nil => exact (storedOver_outside _ _ _ _ (by simp)).symm
  | cons v bs =>
    exact s.readByte_storedOver a (v :: bs) w ((rangeExists_pos _ _ (Nat.succ_pos _)).1 hr) b

/-- A read of the range just written gives the bytes written (R68). -/
theorem State.memRead_memWrite (w : s.memOk) (h : s.memWrite a bs = some t) :
    t.memRead a bs.length = some bs := by
  rw [t.memRead_of_exists _ _ (State.memWrite_eq_some_iff.1 h).1, Option.some_inj]
  refine List.ext_getElem (by simp) fun k _ hk => ?_
  rw [List.getElem_map, List.getElem_range, State.readByte_memWrite w h, storedOver_stored _ _ _ _ hk]

theorem State.memWrite_memOk (w : s.memOk) (h : s.memWrite a bs = some t) : t.memOk := by
  obtain ⟨-, rfl⟩ := State.memWrite_eq_some_iff.1 h
  exact Memory.writeList_wf _ _ _ w

theorem State.memWrite_frame (h : s.memWrite a bs = some t) : Frame [.memory] [] s t := by
  obtain ⟨-, rfl⟩ := State.memWrite_eq_some_iff.1 h
  exact Frame.refl.setMem (by simp)

theorem State.memWrite_pc (h : s.memWrite a bs = some t) : t.pc = s.pc :=
  (State.memWrite_frame h).parts .pc (by simp)

/-- A fetch made after a write, at any address, reads what the write left there (R71). -/
theorem State.fetchWord_memWrite (w : s.memOk) (h : s.memWrite a bs = some t) (q p : Word)
    (hp : p.toNat + 1 ≤ 0xFFF) :
    ((t.setPc q).setPc p).fetchWord = some (storedOver s.readByte a bs p.toNat ++
      storedOver s.readByte a bs (p.toNat + 1)) := by
  simp only [State.fetchWord_eq, State.setPc_pc, State.setPc_readByte, State.readByte_memWrite w h]
  exact if_pos hp

end Written

/-- Settles O29: `storedOver` is what memory reads as after a write, at a stored address and elsewhere. -/
theorem memoryHoldsWhatWasWritten : Obligations.MemoryHoldsWhatWasWritten := by
  intro s a bytes
  refine ⟨s.memWrite_isSome_iff a bytes, fun t w h => ⟨fun k hk => ?stored, fun b hb => ?kept,
    State.memRead_memWrite w h, State.memWrite_memOk w h, (State.memWrite_frame h).parts⟩⟩
  case stored => rw [State.readByte_memWrite w h, storedOver_stored _ _ _ _ hk]
  case kept => rw [State.readByte_memWrite w h, storedOver_outside _ _ _ _ hb]

/-! ## The two instructions that store (R193, R194) -/

/-- The digits are those of the number the byte stands for. -/
theorem bcdDigits_eq (v : Byte) : bcdDigits v =
    [BitVec.ofNat 8 (v.toNat / 100), BitVec.ofNat 8 (v.toNat / 10 % 10),
      BitVec.ofNat 8 (v.toNat % 10)] := by
  simp [bcdDigits, ← BitVec.toNat_inj]
  omega

/-- With its range in memory LD [I],Vx makes its write and advances. -/
theorem exec_stRegs_of_le {x : Reg} {s : State} (h : s.I.toNat + x.toNat ≤ 0xFFF) :
    ∃ u, s.memWrite s.I.toNat (s.regsBelow (x.toNat + 1)) = some u ∧
      exec (.stRegs x) s = .next u.advance := by
  have e := s.memWrite_of_exists s.I.toNat (s.regsBelow (x.toNat + 1))
    ((rangeExists_iff _ _).2 (.inr (by simpa using h)))
  exact ⟨_, e, by rw [exec, execStRegs, e]⟩

/-- With its range in memory LD B makes its write and advances. -/
theorem exec_ldB_of_le {x : Reg} {s : State} (h : s.I.toNat + 2 ≤ 0xFFF) :
    ∃ u, s.memWrite s.I.toNat (bcdDigits (s.reg x)) = some u ∧
      exec (.ldB x) s = .next u.advance := by
  have e := s.memWrite_of_exists s.I.toNat (bcdDigits (s.reg x))
    ((rangeExists_iff _ _).2 (.inr (by simpa using h)))
  exact ⟨_, e, by rw [exec, execLdB, e]⟩

/-- Settles O30: both instructions make one write, and `State.fetchWord_memWrite` says what a fetch
then reads. -/
theorem nextFetchSeesTheStore : Obligations.NextFetchSeesTheStore := by
  refine fun x s w => ⟨fun h => ?stRegs, fun h => ?ldB⟩
  case stRegs =>
    obtain ⟨u, hu, he⟩ := exec_stRegs_of_le h
    exact ⟨_, he, congrArg (· + 2) (State.memWrite_pc hu), State.fetchWord_memWrite w hu _⟩
  case ldB =>
    obtain ⟨u, hu, he⟩ := exec_ldB_of_le h
    rw [bcdDigits_eq] at hu
    exact ⟨_, he, congrArg (· + 2) (State.memWrite_pc hu), State.fetchWord_memWrite w hu _⟩

end Sys2Proof.Machine
end

section
/-! PROOFS. The family of spec/30_encoding.md: the decoder and the encoder are inverse (O1, O2), and the
decoder is the opcode map (O3, O4). -/

namespace Sys2Proof

/-! ## The two outcomes of the decoder -/

theorem decodeWord_eq_ok_iff {op : Word} {i : Instr} :
    decodeWord op = .ok i ↔ decodeRow op = some i := by
  unfold decodeWord
  cases decodeRow op <;> simp

theorem decodeWord_of_decodeRow_none {op : Word} (h : decodeRow op = none) :
    decodeWord op = .error (.unknownOpcode op) := by
  rw [decodeWord, h]

/-! ## Decoding a word that the encoder made -/

/-- The fields of the word's format (R92) select the instruction's own branch of R97's walk. -/
theorem decodeRow_encode (i : Instr) : decodeRow (encode i) = some i := by
  cases i with
  | cls | ret => rfl
  | jp | call | ldI | jpV0 | seByte | sneByte | ldByte | addByte | rnd | seReg | sneReg | drw =>
    simp [encode, decodeRow]
  | ldReg | orReg | andReg | xorReg | addReg | subReg | shrReg | subnReg | shlReg =>
    simp [encode, decodeRow, decodeGroup8]
  | skp | sknp => simp [encode, decodeRow, decodeGroupE]
  | ldVxDT | ldVxK | ldDT | ldST | addI | ldF | ldB | stRegs | ldRegs =>
    simp [encode, decodeRow, decodeGroupF]

/-- Settles O1: `decodeRow_encode` says it of the walk behind `decodeWord`. -/
theorem decodeInvertsEncode : Obligations.DecodeInvertsEncode := fun i =>
  decodeWord_eq_ok_iff.2 (decodeRow_encode i)

/-! ## Encoding an instruction that the decoder gave -/

section Formats
variable {op : Word} {n0 n : BitVec 4} {kk : Byte} {i : Instr}

theorem formatNNN_of_fields (h0 : fieldN0 op = n0) : formatNNN n0 (fieldNNN op) = op :=
  h0 ▸ formatNNN_fields op

theorem formatXKK_of_fields (h0 : fieldN0 op = n0) (hk : fieldKK op = kk) :
    formatXKK n0 (fieldX op) kk = op :=
  h0 ▸ hk ▸ formatXKK_fields op

theorem formatXYN_of_fields (h0 : fieldN0 op = n0) (hn : fieldN op = n) :
    formatXYN n0 (fieldX op) (fieldY op) n = op :=
  h0 ▸ hn ▸ formatXYN_fields op

/-- If this outcome of the decoder is an instruction, the word of that instruction is `op`. -/
def EncodesTo (op : Word) (o : Option Instr) : Prop := ∀ i, o = some i → encode i = op

theorem EncodesTo.some (h : encode i = op) : EncodesTo op (some i) := by
  rintro _ ⟨⟩
  exact h

theorem EncodesTo.none : EncodesTo op none := nofun

/-- A test of the decoder: each branch may use its outcome. -/
theorem EncodesTo.ite {c : Prop} [Decidable c] {o o' : Option Instr} (ht : c → EncodesTo op o)
    (hf : ¬c → EncodesTo op o') : EncodesTo op (if c then o else o') := by
  split
  case isTrue hc => exact ht hc
  case isFalse hc => exact hf hc

theorem encodesTo_decodeGroup0 : EncodesTo op (decodeGroup0 op) := by
  refine .ite (fun h => .some h.symm) fun _ => ?_
  refine .ite (fun h => .some h.symm) fun _ => ?_
  exact .none

theorem encodesTo_decodeGroup8 (h0 : fieldN0 op = 0x8) : EncodesTo op (decodeGroup8 op) := by
  iterate 9 refine .ite (fun hn => .some (formatXYN_of_fields h0 hn)) fun _ => ?_
  exact .none

theorem encodesTo_decodeGroupE (h0 : fieldN0 op = 0xE) : EncodesTo op (decodeGroupE op) := by
  iterate 2 refine .ite (fun hk => .some (formatXKK_of_fields h0 hk)) fun _ => ?_
  exact .none

theorem encodesTo_decodeGroupF (h0 : fieldN0 op = 0xF) : EncodesTo op (decodeGroupF op) := by
  iterate 9 refine .ite (fun hk => .some (formatXKK_of_fields h0 hk)) fun _ => ?_
  exact .none

/-- The walk of R97, a line for each major opcode. -/
theorem encodesTo_decodeRow : EncodesTo op (decodeRow op) := by
  refine .ite (fun _ => encodesTo_decodeGroup0) fun h0 => ?_
  refine .ite (fun h => .some (formatNNN_of_fields h)) fun h1 => ?_
  refine .ite (fun h => .some (formatNNN_of_fields h)) fun h2 => ?_
  refine .ite (fun h => .some (formatXKK_of_fields h rfl)) fun h3 => ?_
  refine .ite (fun h => .some (formatXKK_of_fields h rfl)) fun h4 => ?_
  refine .ite (fun h => .ite (fun hn => .some (formatXYN_of_fields h hn)) fun _ => .none) fun h5 => ?_
  refine .ite (fun h => .some (formatXKK_of_fields h rfl)) fun h6 => ?_
  refine .ite (fun h => .some (formatXKK_of_fields h rfl)) fun h7 => ?_
  refine .ite encodesTo_decodeGroup8 fun h8 => ?_
  refine .ite (fun h => .ite (fun hn => .some (formatXYN_of_fields h hn)) fun _ => .none) fun h9 => ?_
  refine .ite (fun h => .some (formatNNN_of_fields h)) fun hA => ?_
  refine .ite (fun h => .some (formatNNN_of_fields h)) fun hB => ?_
  refine .ite (fun h => .some (formatXKK_of_fields h rfl)) fun hC => ?_
  refine .ite (fun h => .some (formatXYN_of_fields h rfl)) fun hD => ?_
  refine .ite encodesTo_decodeGroupE fun hE => ?_
  exact encodesTo_decodeGroupF (by bv_omega)

end Formats

/-- Settles O2: `encodesTo_decodeRow` says it of the walk behind `decodeWord`. -/
theorem encodeInvertsDecode : Obligations.EncodeInvertsDecode := fun _ i h =>
  encodesTo_decodeRow i (decodeWord_eq_ok_iff.1 h)

/-! ## The opcode map -/

open Laws.EncodesInRow in
/-- The laws of the single instructions, put together. -/
theorem row_admits_encode (i : Instr) : i.row.admits (encode i) = true := by
  cases i
  exacts [cls, ret, jp _, call _, seByte _ _, sneByte _ _, seReg _ _, ldByte _ _, addByte _ _,
    ldReg _ _, orReg _ _, andReg _ _, xorReg _ _, addReg _ _, subReg _ _, shrReg _ _, subnReg _ _,
    shlReg _ _, sneReg _ _, ldI _, jpV0 _, rnd _ _, drw _ _ _, skp _, sknp _, ldVxDT _, ldVxK _,
    ldDT _, ldST _, addI _, ldF _, ldB _, stRegs _, ldRegs _]

theorem row_mem_opcodeMap (i : Instr) : i.row ∈ opcodeMap := by
  cases i <;> simp [opcodeMap, Instr.row]

theorem exists_row_eq_of_mem_opcodeMap : ∀ r ∈ opcodeMap, ∃ i : Instr, i.row = r := by
  simp [opcodeMap, or_imp, forall_and]

section Rows
variable {op mask bits : Word}

/-- On a field the mask covers, a word of the row has the bits of the row. -/
theorem extractLsb'_of_admits (h : OpRow.admits ⟨bits, mask⟩ op = true) (start w : Nat)
    (hm : mask.extractLsb' start w = BitVec.allOnes w) :
    op.extractLsb' start w = bits.extractLsb' start w := by
  have hbits : op &&& mask = bits := eq_of_beq h
  rw [← hbits, BitVec.extractLsb'_and, hm, BitVec.and_allOnes]

theorem fieldN0_of_admits (h : OpRow.admits ⟨bits, 0xF000⟩ op = true) :
    fieldN0 op = fieldN0 bits := extractLsb'_of_admits h 12 4 (by decide)

theorem fieldN0_fieldN_of_admits (h : OpRow.admits ⟨bits, 0xF00F⟩ op = true) :
    fieldN0 op = fieldN0 bits ∧ fieldN op = fieldN bits :=
  ⟨extractLsb'_of_admits h 12 4 (by decide), extractLsb'_of_admits h 0 4 (by decide)⟩

theorem fieldN0_fieldKK_of_admits (h : OpRow.admits ⟨bits, 0xF0FF⟩ op = true) :
    fieldN0 op = fieldN0 bits ∧ fieldKK op = fieldKK bits :=
  ⟨extractLsb'_of_admits h 12 4 (by decide), extractLsb'_of_admits h 0 8 (by decide)⟩

theorem eq_bits_of_admits (h : OpRow.admits ⟨bits, 0xFFFF⟩ op = true) : op = bits :=
  (BitVec.and_allOnes (x := op)).symm.trans (eq_of_beq h)

end Rows

/-- The bits the mask fixes lead R97's walk to an instruction of the row, for any operands. -/
theorem exists_decodeRow_of_admits {op : Word} (i : Instr) (h : i.row.admits op = true) :
    ∃ j, decodeRow op = some j ∧ j.row = i.row := by
  cases i with
  | cls | ret =>
    obtain rfl := eq_bits_of_admits h
    exact ⟨_, rfl, rfl⟩
  | jp | call | ldI | jpV0 | seByte | sneByte | ldByte | addByte | rnd | drw =>
    simp only [decodeRow, fieldN0_of_admits h]
    exact ⟨_, rfl, rfl⟩
  | seReg | sneReg | ldReg | orReg | andReg | xorReg | addReg | subReg | shrReg | subnReg | shlReg =>
    obtain ⟨h0, hn⟩ := fieldN0_fieldN_of_admits h
    simp only [decodeRow, decodeGroup8, h0, hn]
    exact ⟨_, rfl, rfl⟩
  | skp | sknp | ldVxDT | ldVxK | ldDT | ldST | addI | ldF | ldB | stRegs | ldRegs =>
    obtain ⟨h0, hk⟩ := fieldN0_fieldKK_of_admits h
    simp only [decodeRow, decodeGroupE, decodeGroupF, h0, hk]
    exact ⟨_, rfl, rfl⟩

/-- Settles O3: the word of a decoded instruction is the encoder's, which is in the instruction's row; a
word of a row decodes; and a word that decodes is in a row. -/
theorem decodesByTheOpcodeMap : Obligations.DecodesByTheOpcodeMap := by
  intro op
  have decoded (i : Instr) (h : decodeRow op = some i) : i.row ∈ opcodeMap ∧ i.row.admits op = true :=
    ⟨row_mem_opcodeMap i, encodesTo_decodeRow i h ▸ row_admits_encode i⟩
  refine ⟨fun i h => decoded i (decodeWord_eq_ok_iff.1 h), fun r hr h => ?_, fun hnone => ?_⟩
  · obtain ⟨i, rfl⟩ := exists_row_eq_of_mem_opcodeMap r hr
    obtain ⟨j, hj, hrow⟩ := exists_decodeRow_of_admits i h
    exact ⟨j, decodeWord_eq_ok_iff.2 hj, hrow⟩
  · refine decodeWord_of_decodeRow_none (Option.eq_none_iff_forall_ne_some.2 fun i h => ?_)
    obtain ⟨hmem, hadm⟩ := decoded i h
    simp [hnone _ hmem] at hadm

/-- Settles O4: closed words, which the decoder evaluates. -/
theorem sampleWordsDecode : Obligations.SampleWordsDecode := by
  unfold Obligations.SampleWordsDecode
  decide

end Sys2Proof
end

section
/-! PROOFS. The family of spec/40_cycle.md: the instruction a step runs (O8), a word that is none (O7),
where an instruction faults (O48), the halted machine (O10), and that every step and every tick answers
a state (O49). -/

namespace Sys2Proof.Machine

/-! ## A fetched word, decoded or not -/

section Fetched
variable {s : State} {op : Word}

/-- A fetched word that decodes is executed as its instruction (R123, R128). -/
theorem instructionStep_of_decodeWord_ok {i : Instr} (hf : s.fetchWord = some op)
    (hd : decodeWord op = .ok i) : instructionStep s = exec i s := by
  simp only [instructionStep, hf, hd]

/-- A fetched word that does not decode raises `UnknownOpcode` (R124). -/
theorem instructionStep_of_decodeWord_error {e : DecodeError} (hf : s.fetchWord = some op)
    (hd : decodeWord op = .error e) : instructionStep s = .next (s.raise .unknownOpcode op) := by
  simp only [instructionStep, hf, hd]

theorem instructionStep_of_no_row (hf : s.fetchWord = some op)
    (hr : ∀ r ∈ opcodeMap, r.admits op = false) :
    instructionStep s = .next (s.raise .unknownOpcode op) := by
  obtain ⟨-, -, rejected⟩ := decodesByTheOpcodeMap op
  exact instructionStep_of_decodeWord_error hf (rejected hr)

/-- A fetch made when both bytes exist gives their word. -/
theorem State.fetchWord_of_le (h : s.pc.toNat + 1 ≤ 0xFFF) : s.fetchWord =
    some (wordOfBytes (s.readByte s.pc.toNat) (s.readByte (s.pc.toNat + 1))) := by
  rw [State.fetchWord_eq, if_pos h]

end Fetched

/-- Settles O7: the word is rejected by the decoder (O3), and `State.raise` sets the latch alone. -/
theorem unmatchedWordRaisesUnknownOpcode : Obligations.UnmatchedWordRaisesUnknownOpcode := by
  refine ⟨fun s op hf hr => instructionStep_of_no_row hf hr, fun s hpc h0 h1 => ?zeroWord⟩
  have hpcNat : s.pc.toNat = 0x200 := by rw [hpc]; rfl
  have hf : s.fetchWord = some 0x0000 := by
    rw [State.fetchWord_of_le (by omega), hpcNat, h0, h1]
    rfl
  have hr : ∀ r ∈ opcodeMap, r.admits 0x0000 = false := by decide
  refine ⟨_, instructionStep_of_no_row hf hr, hpc, ?_, (Frame.refl (rs := []).raise (by simp)).parts⟩
  rw [State.raise_fault, hpc]

/-! ## The step around its instruction -/

/-- A halted machine ignores a step (R127). -/
theorem step_of_halted {s : State} (h : s.halted = true) : step s = .next s := by
  rw [step, if_pos h]

/-- A halted machine ignores a tick (R257). -/
theorem tick_of_halted {s : State} (keys : Keys) (h : s.halted = true) : tick keys s = .next s := by
  rw [tick, if_pos h]

/-- A step of a machine that is not halted is the instruction step between the phases of its tick. -/
theorem step_of_instructionStep {s t : State} (hs : s.halted = false)
    (h : instructionStep s.beforeSlot = .next t) : step s = .next t.afterSlot := by
  simp [step, hs, h]

/-- Settles O8: the phases before the slot leave the fetched word as it is. -/
theorem stepRunsTheDecodedInstruction : Obligations.StepRunsTheDecodedInstruction := by
  intro s i t hs hpc hd he
  have hf := s.beforeSlot_fetchWord.trans (State.fetchWord_of_le hpc)
  exact step_of_instructionStep hs ((instructionStep_of_decodeWord_ok hf hd).trans he)

/-- Settles O10: both look at the latch first. -/
theorem haltedMachineIgnoresTicks : Obligations.HaltedMachineIgnoresTicks := fun _ keys h =>
  ⟨step_of_halted h, tick_of_halted keys h⟩

/-! ## Where an instruction faults -/

/-- Every instruction answers a state: it takes the fault `faultOf` names and sets the latch alone, or
it completes and keeps the latch (R125, R253, R254). -/
theorem exec_raises_or_completes (i : Instr) (s : State) :
    (∃ k, faultOf i s = some k ∧ exec i s = .next (s.raise k (encode i))) ∨
    (faultOf i s = none ∧ ∃ t, exec i s = .next t ∧ t.fault = s.fault) := by
  have keeps {t : State} (he : exec i s = .next t) (hn : Part.fault ∉ writtenParts i) :
      t.fault = s.fault := (exec_frame he).parts .fault hn
  cases i with
  | ret =>
    cases hs : s.stack with
    | nil => exact .inl ⟨_, if_pos hs, by rw [exec, execRet, hs]⟩
    | cons top rest =>
      have he : exec .ret s = .next (State.setPc { s with stack := rest } top) := by
        rw [exec, execRet, hs]; rfl
      exact .inr ⟨if_neg (by simp [hs]), _, he, rfl⟩
  | ldB x =>
    by_cases h : s.I.toNat + 2 ≤ 0xFFF
    · obtain ⟨u, hu, he⟩ := exec_ldB_of_le (x := x) h
      exact .inr ⟨if_neg (by omega), _, he, (State.memWrite_frame hu).parts .fault (by simp)⟩
    · have e := s.memWrite_of_not s.I.toNat (bcdDigits (s.reg x))
        (by rw [rangeExists_iff, bcdDigits_length]; omega)
      exact .inl ⟨_, if_pos (by omega), by rw [exec, execLdB, e]⟩
  | stRegs x =>
    by_cases h : s.I.toNat + x.toNat ≤ 0xFFF
    · obtain ⟨u, hu, he⟩ := exec_stRegs_of_le h
      exact .inr ⟨if_neg (by omega), _, he, (State.memWrite_frame hu).parts .fault (by simp)⟩
    · have e := s.memWrite_of_not s.I.toNat (s.regsBelow (x.toNat + 1))
        (by rw [rangeExists_iff, State.regsBelow_length]; omega)
      exact .inl ⟨_, if_pos (by omega), by rw [exec, execStRegs, e]⟩
  | ldRegs x =>
    have hr := rangeExists_iff s.I.toNat (x.toNat + 1)
    by_cases h : s.I.toNat + x.toNat ≤ 0xFFF
    · exact .inr ⟨if_neg (by omega), _, if_pos (hr.2 (by omega)),
        by rw [State.advance_eq, State.setPc_fault, State.loadRegs_eq]⟩
    · exact .inl ⟨_, if_pos (by omega), if_neg (by rw [hr]; omega)⟩
  | drw x y n =>
    have hr := rangeExists_iff s.I.toNat n.toNat
    by_cases h : n.toNat = 0 ∨ s.I.toNat + n.toNat - 1 ≤ 0xFFF
    · rw [exec, execDrw, s.memRead_of_exists _ _ (hr.2 h)]
      exact .inr ⟨if_neg (by omega), _, rfl, rfl⟩
    · have e := s.memRead_of_not _ _ (by rwa [hr])
      exact .inl ⟨_, if_pos (by omega), by rw [exec, execDrw, e]⟩
  | _ => exact .inr ⟨rfl, _, rfl, keeps rfl (by simp [writtenParts])⟩

/-- Settles O48: `faultOf` tells the two cases apart, and `State.raise` sets the latch alone. -/
theorem faultsArePreciseAndOnlyWhereNamed : Obligations.FaultsArePreciseAndOnlyWhereNamed := by
  intro i s
  rcases exec_raises_or_completes i s with ⟨k, hk, he⟩ | ⟨hk, ht⟩ <;> rw [hk]
  · exact ⟨fun _ h => Option.some.inj h ▸ he, nofun⟩
  · exact ⟨nofun, fun _ => ht⟩

/-! ## Every step and every tick answers a state -/

theorem exec_answers (i : Instr) (s : State) : ∃ t, exec i s = .next t := by
  rcases exec_raises_or_completes i s with ⟨_, -, he⟩ | ⟨-, t, he, -⟩
  · exact ⟨_, he⟩
  · exact ⟨t, he⟩

/-- No word to fetch and no instruction to decode are faults, which are states too (R126, R256). -/
theorem instructionStep_answers (s : State) : ∃ t, instructionStep s = .next t := by
  cases hf : s.fetchWord with
  | none => exact ⟨_, instructionStep_of_fetchWord_none hf⟩
  | some op =>
    cases hd : decodeWord op with
    | ok i => rw [instructionStep_of_decodeWord_ok hf hd]; exact exec_answers i s
    | error e => exact ⟨_, instructionStep_of_decodeWord_error hf hd⟩

theorem step_answers (s : State) : ∃ t, step s = .next t := by
  cases hs : s.halted with
  | true => exact ⟨s, step_of_halted hs⟩
  | false =>
    obtain ⟨t, ht⟩ := instructionStep_answers s.beforeSlot
    exact ⟨_, step_of_instructionStep hs ht⟩

/-- The slots of a tick answer a state, however many are due and wherever a fault ends them. -/
theorem runSlots_answers (n : Nat) (s : State) : ∃ t, runSlots n s = .next t := by
  induction n generalizing s with
  | zero => exact ⟨s, rfl⟩
  | succ n ih =>
    obtain ⟨t, ht⟩ := instructionStep_answers s
    simp only [runSlots, ht]
    cases t.halted with
    | true => exact ⟨t, rfl⟩
    | false => exact ih t

theorem tick_answers (keys : Keys) (s : State) : ∃ t, tick keys s = .next t := by
  cases hs : s.halted with
  | true => exact ⟨s, tick_of_halted keys hs⟩
  | false =>
    obtain ⟨t, ht⟩ := runSlots_answers s.cfg.ipt (s.latchKeys keys).timerPhase
    simp [tick, hs, ht]

/-- Settles O49: no phase of a step or tick, and no instruction, answers a stop. -/
theorem everyStepAnswersANextState : Obligations.EveryStepAnswersANextState := fun keys s =>
  ⟨step_answers s, tick_answers keys s⟩

end Sys2Proof.Machine
end

section
/-! PROOFS. The family of spec/41_flow.md: return, jump and call (O11 to O15), the four comparing
skips (O16, O17), and a tick on a jump to itself (O43). -/

namespace Sys2Proof

/-! ## Words that the function nibble makes legal or not (R147, R148) -/

theorem decodeRow_formatXYN_seReg (x y n : BitVec 4) :
    decodeRow (formatXYN 0x5 x y n) = if n = 0 then some (.seReg x y) else none := by
  simp [decodeRow]

theorem decodeRow_formatXYN_sneReg (x y n : BitVec 4) :
    decodeRow (formatXYN 0x9 x y n) = if n = 0 then some (.sneReg x y) else none := by
  simp [decodeRow]

/-- The decoder answers the walk's instruction where there is one, and rejects the word elsewhere. -/
theorem decodeWord_of_decodeRow_ite {op : Word} {i : Instr} {P : Prop} [Decidable P]
    (h : decodeRow op = if P then some i else none) :
    decodeWord op = if P then .ok i else .error (.unknownOpcode op) := by
  by_cases hp : P
  · rw [if_pos hp] at h ⊢
    exact decodeWord_eq_ok_iff.2 h
  · rw [if_neg hp] at h ⊢
    exact decodeWord_of_decodeRow_none h

end Sys2Proof

namespace Sys2Proof.Machine

/-! ## Return (R141) -/

theorem exec_ret_of_nil {s : State} (h : s.stack = []) :
    exec .ret s = .next (s.raise .stackUnderflow (encode .ret)) := by
  rw [exec, execRet, h]

theorem exec_ret_of_cons {s : State} {top : Word} {rest : List Word} (h : s.stack = top :: rest) :
    exec .ret s = .next (State.setPc { s with stack := rest } top) := by
  rw [exec, execRet, h]; rfl

/-- Settles O11: each shape of the stack updates its own parts. -/
theorem retPopsOrUnderflows : Obligations.RetPopsOrUnderflows := by
  refine ⟨decodeInvertsEncode .ret, fun s => ⟨fun top rest h => ?pops, fun h => ?underflows⟩⟩
  case pops =>
    exact ⟨_, exec_ret_of_cons h, rfl, rfl,
      ((Frame.refl (rs := [])).setStack (by simp)).setPc (by simp) |>.parts⟩
  case underflows =>
    exact ⟨_, exec_ret_of_nil h, s.raise_fault _ _, (Frame.refl (rs := []).raise (by simp)).parts⟩

/-! ## Jump and call (R142, R143, R144) -/

/-- Settles O12: JP is one update of `pc`. -/
theorem jpLoadsPc : Obligations.JpLoadsPc := fun nnn _ =>
  ⟨decodeInvertsEncode (.jp nnn), _, rfl, zextAddr_toNat nnn, (exec_frame (i := .jp nnn) rfl).parts⟩

/-- Settles O13: CALL is a push and an update of `pc`. -/
theorem callPushesReturnAddress : Obligations.CallPushesReturnAddress := fun nnn _ =>
  ⟨_, rfl, rfl, zextAddr_toNat nnn, (exec_frame (i := .call nnn) rfl).parts⟩

/-- Settles O14: what RET finds on top is what CALL pushed (O13). -/
theorem retReturnsAfterItsCall : Obligations.RetReturnsAfterItsCall := by
  intro nnn s t u hcall hu
  obtain ⟨t', hcall', hstack, -, -⟩ := callPushesReturnAddress nnn s
  obtain rfl : t' = t := Host.Outcome.next.inj (hcall'.symm.trans hcall)
  exact ⟨_, exec_ret_of_cons (hu.trans hstack), rfl, rfl⟩

/-- The sum of R144 has room in the sixteen bits of `pc`. -/
theorem zextAddr_add_zextByte_toNat (nnn : Addr12) (v : Byte) :
    (zextAddr nnn + zextByte v).toNat = nnn.toNat + v.toNat := by
  rw [BitVec.toNat_add, zextAddr_toNat, zextByte_toNat]
  omega

/-- Settles O15: JP V0 is one update of `pc`, and its sum does not wrap. -/
theorem jpV0AddsV0 : Obligations.JpV0AddsV0 := fun nnn s =>
  ⟨decodeInvertsEncode (.jpV0 nnn), _, rfl, zextAddr_add_zextByte_toNat nnn (s.reg 0),
    (exec_frame (i := .jpV0 nnn) rfl).parts⟩

/-! ## Skips (R145 to R149) -/

/-- An instruction that advances and skips where its test `c` says `P` goes on at `pc0 + 4` if `P`
holds and at `pc0 + 2` if not, and changes `pc` alone. -/
theorem exists_next_of_advanceSkippingIf {i : Instr} {s : State} {c : Bool} {P : Prop} [Decidable P]
    (he : exec i s = .next (s.advanceSkippingIf c)) (hc : c = true ↔ P) :
    ∃ t, exec i s = .next t ∧ t.pc = (if P then s.pc + 4 else s.pc + 2) ∧
      UnchangedExcept [.pc] s t := by
  rw [State.advanceSkippingIf_eq] at he
  refine ⟨_, he, ?_, (Frame.refl (rs := []).setPc (by simp)).parts⟩
  simp only [State.setPc_pc, hc]

/-- Settles O16: both advance and skip, on `==` and on `!=`. -/
theorem byteSkipsCompare : Obligations.ByteSkipsCompare := fun x kk _ =>
  ⟨⟨decodeInvertsEncode (.seByte x kk), exists_next_of_advanceSkippingIf rfl beq_iff_eq⟩,
    decodeInvertsEncode (.sneByte x kk), exists_next_of_advanceSkippingIf rfl bne_iff_ne⟩

/-- Settles O17: as O16, with a word that is legal only if its function nibble is 0. -/
theorem registerSkipsCompare : Obligations.RegisterSkipsCompare := fun x y n _ =>
  ⟨⟨decodeWord_of_decodeRow_ite (decodeRow_formatXYN_seReg x y n),
      exists_next_of_advanceSkippingIf rfl beq_iff_eq⟩,
    decodeWord_of_decodeRow_ite (decodeRow_formatXYN_sneReg x y n),
    exists_next_of_advanceSkippingIf rfl bne_iff_ne⟩

/-! ## A tick on a jump to itself (R142, R262, R311) -/

/-- A jump to its own address leaves the whole state as it is. -/
theorem exec_jp_self {s : State} {nnn : Addr12} (h : nnn.toNat = s.pc.toNat) :
    exec (.jp nnn) s = .next s := by
  have hpc : zextAddr nnn = s.pc := BitVec.eq_of_toNat_eq ((zextAddr_toNat nnn).trans h)
  rw [exec, execJp, hpc, State.setPc]

/-- Slots whose instruction leaves the state as it is leave it so together. -/
theorem runSlots_of_fixed {s : State} (h : instructionStep s = .next s) (hs : s.halted = false)
    (n : Nat) : runSlots n s = .next s := by
  induction n with
  | zero => rfl
  | succ n ih => simp [runSlots, h, hs, ih]

/-- A tick whose slots end without a fault ends with phase 3 (R262). -/
theorem tick_of_runSlots {s t : State} {keys : Keys} (hs : s.halted = false)
    (h : runSlots s.cfg.ipt (s.latchKeys keys).timerPhase = .next t) (ht : t.halted = false) :
    tick keys s = .next t.latchPrevKeys := by
  simp [tick, hs, h, ht]

/-- Phases 0 and 1 of a tick do not change what is fetched. -/
theorem State.timerPhase_latchKeys_fetchWord (s : State) (keys : Keys) :
    (s.latchKeys keys).timerPhase.fetchWord = s.fetchWord := rfl

/-- Settles O43: phases 0 and 1 keep `pc` and the word there, so every slot is the jump to itself. -/
theorem selfJumpOnlyCountsAndLatches : Obligations.SelfJumpOnlyCountsAndLatches := by
  intro keys nnn op s hs hf hd hself
  have hslot : instructionStep (s.latchKeys keys).timerPhase = .next (s.latchKeys keys).timerPhase :=
    (instructionStep_of_decodeWord_ok ((s.timerPhase_latchKeys_fetchWord keys).trans hf) hd).trans
      (exec_jp_self hself)
  exact tick_of_runSlots hs (runSlots_of_fixed hslot hs s.cfg.ipt) hs

end Sys2Proof.Machine
end

section
/-! PROOFS. The family of spec/42_alu.md: loads and the sum with no flag (O18), logic (O19), sum,
differences and shifts with a flag (O20 to O22), and the random byte (O23). -/

namespace Sys2Proof.Machine

/-! ## The flags as numbers -/

theorem flagByte_toNat (b : Bool) : (flagByte b).toNat = b.toNat := by cases b <;> rfl

theorem flagByte_decide_toNat (P : Prop) [Decidable P] :
    (flagByte (decide P)).toNat = if P then 1 else 0 := by
  rw [flagByte_toNat, Bool.toNat, Bool.cond_decide]

theorem carryFlag_toNat (a b : Byte) :
    (carryFlag a b).toNat = if a.toNat + b.toNat > 255 then 1 else 0 := flagByte_decide_toNat _

theorem noBorrowFlag_toNat (a b : Byte) :
    (noBorrowFlag a b).toNat = if a.toNat ≥ b.toNat then 1 else 0 := flagByte_decide_toNat _

theorem lowBitFlag_toNat (b : Byte) : (lowBitFlag b).toNat = b.toNat % 2 := by
  rw [lowBitFlag, flagByte_toNat, BitVec.getLsbD, Nat.toNat_testBit, Nat.pow_zero, Nat.div_one]

/-- Bit 7 is all that is left of a byte above its low seven bits. -/
theorem highBitFlag_toNat (b : Byte) : (highBitFlag b).toNat = b.toNat / 128 := by
  rw [highBitFlag, flagByte_toNat, BitVec.getLsbD, Nat.toNat_testBit]
  omega

/-! ## The results as numbers -/

theorem sub_toNat (a b : Byte) : (a - b).toNat = (a.toNat + 256 - b.toNat) % 256 := by
  rw [BitVec.toNat_sub]
  omega

theorem shiftRight_one_toNat (b : Byte) : (b >>> 1).toNat = b.toNat / 2 := by
  rw [BitVec.toNat_ushiftRight, Nat.shiftRight_eq_div_pow, Nat.pow_one]

theorem shiftLeft_one_toNat (b : Byte) : (b <<< 1).toNat = 2 * b.toNat % 256 := by
  rw [BitVec.toNat_shiftLeft, Nat.shiftLeft_eq, Nat.pow_one, Nat.mul_comm]

/-! ## A result, and then `VF` (R160, R164) -/

/-- The quirk comes after the result (R164): where it clears `VF` the result in `VF` is lost, and
elsewhere it writes `VF` back as it is. -/
theorem State.setReg_applyLogicQuirk_reg (s : State) (x : Reg) (r : Byte) (q : Reg) :
    (s.setReg x r).applyLogicQuirk.reg q =
      if s.cfg.logicClearsVF = true ∧ q = 0xF then 0 else if q = x then r else s.reg q := by
  rw [State.applyLogicQuirk_eq, State.setReg_cfg]
  by_cases hq : q = regF
  · subst hq
    rw [State.setReg_reg_same, State.setReg_reg]
    simp [regF]
  · have hn : ¬(s.cfg.logicClearsVF = true ∧ q = 0xF) := fun h => hq h.2
    rw [State.setReg_reg_of_ne _ _ _ _ hq, State.setReg_reg, if_neg hn]

/-- With `x = F` the flag is what `VF` holds (R160). -/
theorem State.setResultThenFlag_regF (s : State) (x : Reg) (r f : Byte) :
    (s.setResultThenFlag x r f).reg regF = f := State.setReg_reg_same _ _ _

theorem State.setResultThenFlag_reg_of_ne (s : State) {x : Reg} (r f : Byte) (hx : x ≠ regF) :
    (s.setResultThenFlag x r f).reg x = r := by
  rw [State.setResultThenFlag_eq, State.setReg_reg_of_ne _ _ _ _ hx, State.setReg_reg_same]

theorem frame_setReg_setVF_advance (s : State) (x : Reg) (r f : Byte) :
    Frame [.pc, .regs] [x, regF] s ((s.setReg x r).setVF f).advance :=
  ((Frame.refl.setReg (by simp) (by simp)).setReg (by simp) (by simp)).setPc (by simp)

/-! ## The three ways to end: a register alone, with the logic quirk, with a flag -/

section Ends
variable {i : Instr} {s : State} {x : Reg} {r f : Byte}

/-- An instruction that writes `Vx` and advances changes `Vx` and `pc` alone. -/
theorem exists_next_of_setReg (he : exec i s = .next (s.setReg x r).advance) :
    ∃ t, exec i s = .next t ∧ t.reg x = r ∧ RegsUnchangedExcept [x] s t ∧
      t.pc = s.pc + 2 ∧ UnchangedExcept [.pc, .regs] s t := by
  obtain ⟨parts, regs, -⟩ : Frame [.pc, .regs] [x] s (s.setReg x r).advance :=
    (Frame.refl.setReg (by simp) (by simp)).setPc (by simp)
  exact ⟨_, he, s.setReg_reg_same x r, regs, rfl, parts⟩

/-- An instruction that writes `Vx`, applies the logic quirk and advances. -/
theorem exists_next_of_applyLogicQuirk
    (he : exec i s = .next (s.setReg x r).applyLogicQuirk.advance) :
    ∃ t, exec i s = .next t ∧
      (∀ q, t.reg q =
        if s.cfg.logicClearsVF = true ∧ q = 0xF then 0 else if q = x then r else s.reg q) ∧
      t.pc = s.pc + 2 ∧ UnchangedExcept [.pc, .regs] s t :=
  ⟨_, he, s.setReg_applyLogicQuirk_reg x r, rfl, (frame_setReg_setVF_advance s x r _).parts⟩

/-- An instruction that writes `Vx`, then the flag, and advances: with `x = F` nothing is claimed of
the result, which is lost. -/
theorem exists_next_of_setResultThenFlag {m n : Nat}
    (he : exec i s = .next (s.setResultThenFlag x r f).advance) (hr : r.toNat = m)
    (hf : f.toNat = n) :
    ∃ t, exec i s = .next t ∧ (x ≠ 0xF → (t.reg x).toNat = m) ∧ (t.reg 0xF).toNat = n ∧
      RegsUnchangedExcept [x, 0xF] s t ∧ t.pc = s.pc + 2 ∧ UnchangedExcept [.pc, .regs] s t := by
  have frame := frame_setReg_setVF_advance s x r f
  have hres (hx : x ≠ 0xF) := (congrArg BitVec.toNat (s.setResultThenFlag_reg_of_ne r f hx)).trans hr
  have hflag := (congrArg BitVec.toNat (s.setResultThenFlag_regF x r f)).trans hf
  exact ⟨_, he, hres, hflag, frame.regs, rfl, frame.parts⟩

end Ends

/-! ## The obligations -/

/-- Settles O18: three register writes, of which ADD wraps as `BitVec` addition does. -/
theorem plainRegisterWrites : Obligations.PlainRegisterWrites := by
  intro x y kk s
  refine ⟨⟨decodeInvertsEncode (.ldByte x kk), exists_next_of_setReg rfl⟩,
    ⟨decodeInvertsEncode (.addByte x kk), ?add⟩,
    ⟨decodeInvertsEncode (.ldReg x y), exists_next_of_setReg rfl⟩⟩
  case add =>
    obtain ⟨t, he, hx, frame⟩ := exists_next_of_setReg (i := .addByte x kk) (s := s) rfl
    exact ⟨t, he, by rw [hx, BitVec.toNat_add], frame⟩

/-- Settles O19: the three differ in their result alone. -/
theorem logicWritesResultAndQuirk : Obligations.LogicWritesResultAndQuirk := fun _ _ _ =>
  ⟨exists_next_of_applyLogicQuirk rfl, exists_next_of_applyLogicQuirk rfl,
    exists_next_of_applyLogicQuirk rfl⟩

/-- Settles O20: the sum and its carry are written in the order of R160. -/
theorem addSetsCarry : Obligations.AddSetsCarry := fun _ _ _ =>
  exists_next_of_setResultThenFlag rfl (BitVec.toNat_add _ _) (carryFlag_toNat _ _)

/-- Settles O21: SUBN is SUB with its operands exchanged. -/
theorem subtractionsSetNoBorrow : Obligations.SubtractionsSetNoBorrow := fun _ _ _ =>
  ⟨exists_next_of_setResultThenFlag rfl (sub_toNat _ _) (noBorrowFlag_toNat _ _),
    exists_next_of_setResultThenFlag rfl (sub_toNat _ _) (noBorrowFlag_toNat _ _)⟩

/-- Settles O22: the bit a shift drops is the remainder or the quotient of the byte as a number. -/
theorem shiftsReadVy : Obligations.ShiftsReadVy := fun _ _ _ =>
  ⟨exists_next_of_setResultThenFlag rfl (shiftRight_one_toNat _) (lowBitFlag_toNat _),
    exists_next_of_setResultThenFlag rfl (shiftLeft_one_toNat _) (highBitFlag_toNat _)⟩

/-! ## The random byte (R173) -/

theorem State.nextRnd_of_cons {s : State} {r : Byte} {rest : List Byte} (h : s.rndIn = r :: rest) :
    s.nextRnd = r := by
  rw [State.nextRnd, h]

theorem and_and_not_self (a kk : Byte) : a &&& kk &&& ~~~kk = 0 := by
  rw [BitVec.and_assoc, BitVec.and_not_self]
  exact BitVec.and_zero

/-- Settles O23: `Vx` takes the masked sample, and the port moves on by one byte. -/
theorem rndMasksTheSample : Obligations.RndMasksTheSample := by
  intro x kk s
  obtain ⟨parts, regs, -⟩ := exec_frame (i := .rnd x kk) (s := s) rfl
  have hx : (s.consumeRnd.setReg x (s.nextRnd &&& kk)).advance.reg x = s.nextRnd &&& kk :=
    State.setReg_reg_same _ _ _
  refine ⟨_, rfl, hx, ?outside, fun r rest h => ⟨?sample, ?used⟩, ?empty, rfl, regs, rfl, parts⟩
  case outside => rw [hx, and_and_not_self]
  case sample => rw [hx, State.nextRnd_of_cons h]
  case used => exact congrArg List.tail h
  case empty => exact fun h => congrArg List.tail h

end Sys2Proof.Machine
end

section
/-! PROOFS. The family of spec/43_index_memory.md: what is loaded into or added to `I` (O24, O25), and
the three transfers at `I` (O26 to O28). -/

namespace Sys2Proof.Machine

/-! ## The operands of LD F and ADD I, and the flag of ADD I, as numbers -/

theorem lowNibble_toNat (v : Byte) : (lowNibble v).toNat = v.toNat % 16 := by
  rw [lowNibble, BitVec.extractLsb'_toNat, Nat.shiftRight_zero]

/-- The address of a glyph has room in the sixteen bits of `I` (R192). -/
theorem glyphAddress_toNat (d : BitVec 4) : (glyphAddress d).toNat = 0x050 + 5 * d.toNat := by
  have hd : (d.zeroExtend 16).toNat = d.toNat := BitVec.toNat_setWidth_of_le (by decide)
  rw [glyphAddress, BitVec.toNat_add, BitVec.toNat_mul, hd]
  simp only [BitVec.ofNat_eq_ofNat, BitVec.toNat_ofNat]
  omega

theorem add_zextByte_toNat (i : Word) (v : Byte) :
    (i + zextByte v).toNat = (i.toNat + v.toNat) % 65536 := by
  rw [BitVec.toNat_add, zextByte_toNat]

theorem indexOutFlag_toNat (i : Word) :
    (indexOutFlag i).toNat = if i.toNat > 0xFFF then 1 else 0 := flagByte_decide_toNat _

/-! ## The index register (R190 to R192) -/

/-- An instruction that writes `I` and advances changes `I` and `pc` alone. -/
theorem exists_next_of_setI {i : Instr} {s : State} {v : Word} {n : Nat}
    (he : exec i s = .next (s.setI v).advance) (hv : v.toNat = n) :
    ∃ t, exec i s = .next t ∧ t.I.toNat = n ∧ t.pc = s.pc + 2 ∧
      UnchangedExcept [.pc, .index] s t :=
  ⟨_, he, hv, rfl, (Frame.refl (rs := []).setI (by simp)).setPc (by simp) |>.parts⟩

/-- Settles O24: both write `I`, LD F without a look at memory. -/
theorem indexLoads : Obligations.IndexLoads := by
  refine ⟨fun nnn s => ⟨decodeInvertsEncode (.ldI nnn), ?ldI⟩,
    fun x s => ⟨decodeInvertsEncode (.ldF x), ?ldF⟩⟩
  case ldI => exact exists_next_of_setI rfl (zextAddr_toNat nnn)
  case ldF =>
    refine exists_next_of_setI rfl ?_
    rw [glyphAddress_toNat, lowNibble_toNat]

/-- Settles O25: the flag is taken from the wrapped sum, as `I` holds it (D10). -/
theorem addIndexFlagsOverrun : Obligations.AddIndexFlagsOverrun := by
  intro x s
  obtain ⟨parts, regs, -⟩ := exec_frame (i := .addI x) (s := s) rfl
  refine ⟨_, rfl, add_zextByte_toNat _ _, ?flag, regs, rfl, parts⟩
  case flag =>
    rw [← add_zextByte_toNat, ← indexOutFlag_toNat]
    exact congrArg BitVec.toNat (State.setReg_reg_same _ _ _)

/-! ## The transfers to memory (R193, R194) -/

/-- An instruction that makes a write and advances stores the bytes at ascending addresses (R15), and
changes them and `pc` alone. -/
theorem exists_next_of_memWrite {i : Instr} {s u : State} {a : Nat} {bs : List Byte} (w : s.memOk)
    (hu : s.memWrite a bs = some u) (he : exec i s = .next u.advance) :
    ∃ t, exec i s = .next t ∧ (∀ k, (h : k < bs.length) → t.readByte (a + k) = bs[k]) ∧
      (∀ b, ¬(a ≤ b ∧ b < a + bs.length) → t.readByte b = s.readByte b) ∧
      t.pc = s.pc + 2 ∧ UnchangedExcept [.pc, .memory] s t := by
  obtain ⟨-, write⟩ := memoryHoldsWhatWasWritten s a bs
  obtain ⟨stored, kept, -⟩ := write u w hu
  have frame : Frame [.pc, .memory] [] s u.advance := by
    obtain ⟨-, rfl⟩ := State.memWrite_eq_some_iff.1 hu
    exact (Frame.refl.setMem (by simp)).setPc (by simp)
  exact ⟨_, he, stored, kept, congrArg (· + 2) (State.memWrite_pc hu), frame.parts⟩

/-- Settles O26: the bytes written are `bcdDigits`, whose division is that of the numbers. -/
theorem bcdStoresThreeDigits : Obligations.BcdStoresThreeDigits := by
  refine fun x s => ⟨fun w h => ?fits, fun h => ?faults⟩
  case fits =>
    obtain ⟨u, hu, he⟩ := exec_ldB_of_le (x := x) h
    obtain ⟨t, ht, stored, frame⟩ := exists_next_of_memWrite w hu he
    have digit (k : Nat) (hk : k < 3) : (t.readByte (s.I.toNat + k)).toNat =
        (bcdDigits (s.reg x))[k].toNat := congrArg BitVec.toNat (stored k hk)
    exact ⟨t, ht, digit 0 (by decide), digit 1 (by decide), digit 2 (by decide), frame⟩
  case faults => exact (faultsArePreciseAndOnlyWhereNamed (.ldB x) s).1 _ (if_pos h)

/-- Settles O27: the bytes written are those of `V0` to `Vx`. -/
theorem storeRegistersWritesTheRange : Obligations.StoreRegistersWritesTheRange := by
  refine fun x s => ⟨fun w h => ?fits, fun h => ?faults⟩
  case fits =>
    obtain ⟨u, hu, he⟩ := exec_stRegs_of_le h
    obtain ⟨t, ht, stored, kept, frame⟩ := exists_next_of_memWrite w hu he
    rw [State.regsBelow_length] at kept
    refine ⟨t, ht, fun k hk => ?_, fun a ha => kept a (by omega), frame⟩
    rw [stored k.toNat (by rw [State.regsBelow_length]; omega), State.regsBelow_getElem,
      BitVec.ofNat_toNat, BitVec.setWidth_eq]
  case faults => exact (faultsArePreciseAndOnlyWhereNamed (.stRegs x) s).1 _ (if_pos h)

/-! ## The transfer from memory (R195) -/

/-- With its range in memory LD Vx,[I] loads the registers and advances. -/
theorem exec_ldRegs_of_le {x : Reg} {s : State} (h : s.I.toNat + x.toNat ≤ 0xFFF) :
    exec (.ldRegs x) s = .next (s.loadRegs (x.toNat + 1)).advance :=
  if_pos ((rangeExists_iff _ _).2 (.inr h))

/-- Loading the registers below `n` and advancing writes these and `pc` alone. -/
theorem frame_loadRegs_advance (s : State) (n : Nat) :
    Frame [.pc, .regs] ((List.range n).map (BitVec.ofNat 4)) s (s.loadRegs n).advance :=
  (Frame.loadRegs (fun _ hk => List.mem_map_of_mem (List.mem_range.2 hk)) (by simp)).setPc (by simp)

/-- Settles O28: the loads are `State.loadRegs` up to `Vx`, and write registers alone. -/
theorem loadRegistersReadsTheRange : Obligations.LoadRegistersReadsTheRange := by
  refine fun x s => ⟨fun h => ?fits, fun h => ?faults⟩
  case fits =>
    refine ⟨_, exec_ldRegs_of_le h, fun k => ?loaded, ?pc,
      (frame_loadRegs_advance s (x.toNat + 1)).parts⟩
    case loaded =>
      rw [State.advance_eq, State.setPc_reg, s.loadRegs_reg _ (by omega)]
      simp only [Nat.lt_succ_iff]
    case pc => rw [State.advance_eq, State.setPc_pc, State.loadRegs_eq]
  case faults => exact (faultsArePreciseAndOnlyWhereNamed (.ldRegs x) s).1 _ (if_pos h)

end Sys2Proof.Machine
end

section
/-! PROOFS. The family of spec/44_display.md: clear (O31), the sprite drawn pixel by pixel and its
collision (O32), its range in memory (O33), and a second draw of it (O34). -/

namespace Sys2Proof.Machine

/-! ## Rows and screens, pixel by pixel (R28, R211) -/

/-- A row is known by its pixels: column `c` is bit `63 - c`. -/
theorem pixelRow_ext {a b : PixelRow}
    (h : ∀ c < 64, a.getLsbD (63 - c) = b.getLsbD (63 - c)) : a = b := by
  refine BitVec.eq_of_getLsbD_eq fun i hi => ?_
  have hc := h (63 - i) (by omega)
  rwa [Nat.sub_sub_self (by omega)] at hc

theorem pixelRow_ne_zero_iff {a : PixelRow} : a ≠ 0 ↔ ∃ c < 64, a.getLsbD (63 - c) = true := by
  constructor
  · intro ha
    by_contra hdark
    exact ha (pixelRow_ext fun c hc => by simpa using fun hlit => hdark ⟨c, hc, hlit⟩)
  · rintro ⟨c, -, hlit⟩ rfl
    simp at hlit

theorem State.pixel_of_lt (s : State) {r c : Nat} (hr : r < 32) (hc : c < 64) :
    s.pixel r c = s.disp[r].getLsbD (63 - c) := dif_pos ⟨hr, hc⟩

/-- Two states with the same pixels on the screen have the same display. -/
theorem State.disp_eq_of_pixel {s t : State}
    (h : ∀ r c, r < 32 → c < 64 → t.pixel r c = s.pixel r c) : t.disp = s.disp := by
  refine Vector.ext fun r hr => pixelRow_ext fun c hc => ?_
  rw [← t.pixel_of_lt hr hc, ← s.pixel_of_lt hr hc]
  exact h r c hr hc

/-! ## The sprite at `I` (R211, R212) -/

/-- The `n` bytes of the sprite at `I`, as DRW reads them. -/
def State.sprite (s : State) (n : Nat) : List Byte :=
  (List.range n).map fun k => s.readByte (s.I.toNat + k)

@[simp] theorem State.sprite_length (s : State) (n : Nat) : (s.sprite n).length = n := by
  simp [State.sprite]

@[simp] theorem State.sprite_getElem (s : State) (n k : Nat) (h : k < (s.sprite n).length) :
    (s.sprite n)[k] = s.readByte (s.I.toNat + k) := by
  simp [State.sprite]

theorem State.memRead_sprite {s : State} {n : Nat} (h : n = 0 ∨ s.I.toNat + n - 1 ≤ 0xFFF) :
    s.memRead s.I.toNat n = some (s.sprite n) :=
  s.memRead_of_exists _ _ ((rangeExists_iff _ _).2 h)

/-- The sprite depends on `I` and memory alone. -/
theorem State.spriteBit_congr {s t : State} (hI : t.I = s.I)
    (hmem : ∀ a, t.readByte a = s.readByte a) (n row col r c : Nat) :
    t.spriteBit n row col r c = s.spriteBit n row col r c := by
  rw [State.spriteBit, State.spriteBit, hI, hmem]

section Blit
variable (s : State) (n row col : Nat) {r c : Nat}

theorem State.spriteBit_eq_false (h : ¬(row ≤ r ∧ r < row + n)) :
    s.spriteBit n row col r c = false := by
  rw [State.spriteBit, decide_eq_false fun hb => h ⟨hb.1, hb.2.1⟩, Bool.false_and]

/-- A row that the sprite has: its mask holds the sprite's bits of that row. -/
theorem State.spriteBit_eq_mask (h : row ≤ r ∧ r < row + n) (hc : c < 64) :
    s.spriteBit n row col r c =
      (spriteMask (s.readByte (s.I.toNat + (r - row))) col).getLsbD (63 - c) := by
  rw [spriteMask_column _ _ _ hc, State.spriteBit]
  simp only [h, true_and]

/-- The blit inverts exactly the pixels where the sprite has a 1 bit (R212). -/
theorem State.blit_sprite_pixel (hr : r < 32) (hc : c < 64) :
    (blit s.disp row col (s.sprite n)).1[r].getLsbD (63 - c) =
      (s.pixel r c ^^ s.spriteBit n row col r c) := by
  rw [blit_row _ _ _ _ _ hr, s.pixel_of_lt hr hc]
  simp only [State.sprite_length, State.sprite_getElem]
  by_cases h : row ≤ r ∧ r < row + n
  · rw [dif_pos h, BitVec.getLsbD_xor, s.spriteBit_eq_mask n row col h hc]
  · rw [dif_neg h, s.spriteBit_eq_false n row col h, Bool.xor_false]

/-- The blit reports a collision iff some pixel that it inverts was lit (R215). -/
theorem State.blit_sprite_hit :
    (blit s.disp row col (s.sprite n)).2 = true ↔
      ∃ r c, r < 32 ∧ c < 64 ∧ s.pixel r c = true ∧ s.spriteBit n row col r c = true := by
  simp only [blit_hit, State.sprite_length, State.sprite_getElem, pixelRow_ne_zero_iff,
    BitVec.getLsbD_and, Bool.and_eq_true]
  constructor
  · rintro ⟨k, hk, hr, c, hc, hlit, hbit⟩
    refine ⟨row + k, c, hr, hc, (s.pixel_of_lt hr hc).trans hlit, ?_⟩
    rwa [s.spriteBit_eq_mask n row col ⟨by omega, by omega⟩ hc, Nat.add_sub_cancel_left]
  · rintro ⟨r, c, hr, hc, hlit, hbit⟩
    by_cases h : row ≤ r ∧ r < row + n
    · obtain ⟨k, rfl⟩ := Nat.exists_eq_add_of_le h.1
      rw [s.spriteBit_eq_mask n row col h hc, Nat.add_sub_cancel_left] at hbit
      exact ⟨k, by omega, hr, c, hc, (s.pixel_of_lt hr hc).symm.trans hlit, hbit⟩
    · rw [s.spriteBit_eq_false n row col h] at hbit
      exact absurd hbit Bool.false_ne_true

end Blit

/-! ## The collision as the byte `VF` holds -/

theorem flagByte_eq_zero_or_one (b : Bool) : flagByte b = 0 ∨ flagByte b = 1 := by
  cases b <;> decide

theorem flagByte_eq_one_iff (b : Bool) : flagByte b = 1 ↔ b = true := by
  cases b <;> decide

/-! ## The display's instructions (R210, R212 to R216) -/

/-- Settles O31: CLS replaces the display and advances. -/
theorem clsClearsEveryRow : Obligations.ClsClearsEveryRow :=
  ⟨decodeInvertsEncode .cls, fun _ =>
    ⟨_, rfl, fun r => Vector.getElem_replicate r.isLt, rfl, (exec_frame (i := .cls) rfl).parts⟩⟩

/-- Settles O33: the range fails the check, so the instruction takes its one fault. -/
theorem drwFaultsOnItsWholeRange : Obligations.DrwFaultsOnItsWholeRange := fun x y n s hn h =>
  (faultsArePreciseAndOnlyWhereNamed (.drw x y n) s).1 _ (if_pos ⟨hn, h⟩)

/-- The display and the collision that drawing the sprite at (`Vx`, `Vy`) makes (R212, R213). -/
def State.drawing (s : State) (x y n : BitVec 4) : Vector PixelRow 32 × Bool :=
  blit s.disp ((s.reg y).toNat % 32) ((s.reg x).toNat % 64) (s.sprite n.toNat)

theorem frame_setDisp_setReg_setPc (s : State) (d : Vector PixelRow 32) (v : Byte) :
    Frame [.pc, .display, .regs] [0xF] s
      ((State.setReg { s with disp := d } 0xF v).setPc (s.pc + 2)) :=
  ((Frame.refl.setDisp (by simp)).setReg (by simp) (by simp)).setPc (by simp)

/-- With its range in memory DRW draws the sprite, sets `VF` to the collision, advances, and changes
nothing else. -/
theorem exists_next_of_drw {x y n : BitVec 4} {s : State}
    (h : n = 0 ∨ s.I.toNat + n.toNat - 1 ≤ 0xFFF) :
    ∃ t, exec (.drw x y n) s = .next t ∧ t.disp = (s.drawing x y n).1 ∧
      t.reg 0xF = flagByte (s.drawing x y n).2 ∧ RegsUnchangedExcept [0xF] s t ∧
      t.pc = s.pc + 2 ∧ UnchangedExcept [.pc, .display, .regs] s t := by
  have hn : n.toNat = 0 ∨ s.I.toNat + n.toNat - 1 ≤ 0xFFF := h.imp_left (congrArg BitVec.toNat)
  have he : exec (.drw x y n) s = .next ((State.setReg { s with disp := (s.drawing x y n).1 } 0xF
      (flagByte (s.drawing x y n).2)).setPc (s.pc + 2)) := by
    rw [exec, execDrw, State.memRead_sprite hn]
    rfl
  obtain ⟨parts, regs, -⟩ := frame_setDisp_setReg_setPc s _ _
  exact ⟨_, he, rfl, State.setReg_reg_same _ _ _, regs, rfl, parts⟩

/-- Settles O32: the blit inverts the sprite's pixels, and `VF` holds its collision. -/
theorem drwXorsTheSpriteAndReportsCollision : Obligations.DrwXorsTheSpriteAndReportsCollision := by
  intro x y n s h
  obtain ⟨t, he, hdisp, hvf, frame⟩ := exists_next_of_drw (x := x) (y := y) h
  refine ⟨t, he, fun r c hr hc => ?pixels, ?flag, ?collision, frame⟩
  case pixels =>
    rw [t.pixel_of_lt hr hc, hdisp]
    exact s.blit_sprite_pixel n.toNat _ _ hr hc
  case flag => rw [hvf]; exact flagByte_eq_zero_or_one _
  case collision => rw [hvf]; exact (flagByte_eq_one_iff _).trans (s.blit_sprite_hit n.toNat _ _)

/-- Settles O34: both draws invert the same pixels (O32), since the first one changes neither the
sprite nor its coordinates. -/
theorem drawingTwiceRestoresTheDisplay : Obligations.DrawingTwiceRestoresTheDisplay := by
  intro x y n s t u hx hy h ht hu
  obtain ⟨t', et, pix, -, -, regs, -, parts⟩ := drwXorsTheSpriteAndReportsCollision x y n s h
  obtain rfl : t' = t := Host.Outcome.next.inj (et.symm.trans ht)
  have hI : t'.I = s.I := parts .index (by simp)
  obtain ⟨u', eu, pix', -, hit', -⟩ := drwXorsTheSpriteAndReportsCollision x y n t' (by rwa [hI])
  obtain rfl : u' = u := Host.Outcome.next.inj (eu.symm.trans hu)
  simp only [regs x (by simpa using hx), regs y (by simpa using hy),
    State.spriteBit_congr hI (parts .memory (by simp))] at pix' hit'
  refine ⟨State.disp_eq_of_pixel fun r c hr hc => ?restored, fun hdark => hit'.trans ?dark⟩
  case restored => rw [pix' r c hr hc, pix r c hr hc, Bool.xor_assoc, Bool.xor_self, Bool.xor_false]
  case dark =>
    refine exists₂_congr fun r c => and_congr_right fun hr => and_congr_right fun hc => ?_
    rw [pix r c hr hc, hdark, Bool.false_xor, and_self]

end Sys2Proof.Machine
end

section
/-! PROOFS. The family of spec/45_keypad_timers.md: the two skips on a key (O35), the wait for a key
release (O36, O37), and the transfers to and from the timers (O38). -/

namespace Sys2Proof.Machine

/-! ## Keys by number (R230, R233, R236) -/

/-- The key in the low nibble of `v` is held (R236). -/
theorem keyHeld_lowNibble (keys : Keys) (v : Byte) :
    keyHeld keys (lowNibble v) = keys.getLsbD (v.toNat % 16) := by
  rw [keyHeld, lowNibble_toNat]

theorem keyByte_toNat (k : BitVec 4) : (keyByte k).toNat = k.toNat :=
  BitVec.toNat_setWidth_of_le (by decide)

section Released
variable {prev now : Keys}

theorem keyHeld_released_iff (k : BitVec 4) : keyHeld (released prev now) k = true ↔
    prev.getLsbD k.toNat = true ∧ now.getLsbD k.toNat = false := by
  rw [keyHeld_released, Bool.and_eq_true, Bool.not_eq_true', keyHeld, keyHeld]

theorem smallestKey_released_eq_some {k : BitVec 4}
    (hk : prev.getLsbD k.toNat = true ∧ now.getLsbD k.toNat = false)
    (hmin : ∀ j, j < k.toNat → ¬(prev.getLsbD j = true ∧ now.getLsbD j = false)) :
    smallestKey (released prev now) = some k := by
  refine (smallestKey_some _ k).2 ⟨(keyHeld_released_iff k).2 hk, fun j hj => ?_⟩
  exact Bool.eq_false_iff.2 (mt (keyHeld_released_iff j).1 (hmin j.toNat hj))

theorem smallestKey_released_eq_none
    (h : ∀ k, k < 16 → ¬(prev.getLsbD k = true ∧ now.getLsbD k = false)) :
    smallestKey (released prev now) = none := by
  refine (smallestKey_none _).2 fun k => ?_
  exact Bool.eq_false_iff.2 (mt (keyHeld_released_iff k).1 (h k.toNat k.isLt))

end Released

/-! ## The skips on a key (R230, R231) -/

/-- Settles O35: both advance and skip, on the key as this tick's latch has it. -/
theorem keySkipsTestThisTick : Obligations.KeySkipsTestThisTick := by
  intro x s
  have hkey := keyHeld_lowNibble s.keysNow (s.reg x)
  refine ⟨exists_next_of_advanceSkippingIf rfl ?held, exists_next_of_advanceSkippingIf rfl ?notHeld⟩
  case held => rw [hkey]
  case notHeld => rw [hkey, Bool.not_eq_true']

/-! ## The wait for a release (R233, R237) -/

section KeyWait
variable {x : Reg} {s : State}

theorem exec_ldVxK_of_some {k : BitVec 4}
    (h : smallestKey (released s.keysPrev s.keysNow) = some k) :
    exec (.ldVxK x) s = .next (s.setReg x (keyByte k)).advance := by
  rw [exec, execLdVxK, h]

theorem exec_ldVxK_of_none (h : smallestKey (released s.keysPrev s.keysNow) = none) :
    exec (.ldVxK x) s = .next s := by
  rw [exec, execLdVxK, h]

end KeyWait

/-- Settles O36: a release is one register write and the advance, and without one nothing is done. -/
theorem keyWaitTakesTheSmallestRelease : Obligations.KeyWaitTakesTheSmallestRelease := by
  refine fun x s => ⟨fun k hk hprev hnow hmin => ?release, fun hnone => ?wait⟩
  case release =>
    obtain ⟨key, rfl⟩ : ∃ key : BitVec 4, key.toNat = k := ⟨⟨k, hk⟩, rfl⟩
    have hkey := smallestKey_released_eq_some ⟨hprev, hnow⟩ hmin
    obtain ⟨t, he, hx, frame⟩ := exists_next_of_setReg (exec_ldVxK_of_some (x := x) hkey)
    exact ⟨t, he, by rw [hx, keyByte_toNat], frame⟩
  case wait => exact exec_ldVxK_of_none (smallestKey_released_eq_none hnone)

/-- Settles O37: every slot is the wait of O36, which leaves the state as it is. -/
theorem keyWaitSpinsThroughTheTick : Obligations.KeyWaitSpinsThroughTheTick := by
  intro n x op s hs hf hd hnone
  obtain ⟨-, wait⟩ := keyWaitTakesTheSmallestRelease x s
  have hslot := (instructionStep_of_decodeWord_ok hf hd).trans (wait hnone)
  exact runSlots_of_fixed hslot hs n

/-! ## The timers (R232, R234, R235) -/

/-- Settles O38: one register write, and two updates of a timer alone. -/
theorem timerTransfersCopyOneByte : Obligations.TimerTransfersCopyOneByte := fun x _ =>
  ⟨exists_next_of_setReg rfl, ⟨_, rfl, rfl, rfl, (exec_frame (i := .ldDT x) rfl).parts⟩,
    _, rfl, rfl, rfl, (exec_frame (i := .ldST x) rfl).parts⟩

end Sys2Proof.Machine
end

section
/-! PROOFS. The family of spec/60_exceptions.md: what stands around a slot (O9), the timers and the tone
gate (O39, O40), the key latches (O41), a tick slot by slot (O42), and the latch that no step clears
(O51). -/

namespace Sys2Proof.Machine

/-! ## A halted machine over any number of steps (R257) -/

theorem State.halted_of_fault {s : State} {f : FaultRecord} (h : s.fault = some f) :
    s.halted = true := by
  rw [State.halted, h, Option.isSome_some]

/-- Each step of a halted machine changes nothing (O10). -/
theorem runSteps_of_halted {s : State} (h : s.halted = true) (k : Nat) : runSteps k s = .next s := by
  induction k with
  | zero => rfl
  | succ k ih => rw [runSteps_succ k s s (step_of_halted h), ih]

/-- Settles O51: the machine is halted, so no step changes the latch or anything else. -/
theorem onlyResetClearsTheLatch : Obligations.OnlyResetClearsTheLatch := by
  intro k s t f hf hrun
  rw [runSteps_of_halted (State.halted_of_fault hf)] at hrun
  obtain rfl := Host.Outcome.next.inj hrun
  exact hf

/-! ## The place in the tick, and what a slot leaves behind (R262, R265, R268) -/

/-- The state at place `k` of its tick. -/
def State.setSlot (s : State) (k : Nat) : State := { s with slot := k }

@[simp] theorem State.setSlot_slot (s : State) (k : Nat) : (s.setSlot k).slot = k := rfl
@[simp] theorem State.setSlot_cfg (s : State) (k : Nat) : (s.setSlot k).cfg = s.cfg := rfl
@[simp] theorem State.setSlot_halted (s : State) (k : Nat) : (s.setSlot k).halted = s.halted := rfl
@[simp] theorem State.setSlot_fetchWord (s : State) (k : Nat) :
    (s.setSlot k).fetchWord = s.fetchWord := rfl

namespace Frame

variable {ps : List Part} {rs : List Reg} {s t : State}

theorem setSlot (f : Frame ps rs s t) {k : Nat} (hp : Part.slot ∈ ps) :
    Frame ps rs s (t.setSlot k) where
  parts p hn := by
    cases p with
    | slot => exact absurd hp hn
    | _ => exact f.parts _ hn
  regs := f.regs
  mem := f.mem

theorem latchPrevKeys (f : Frame ps rs s t) (hp : Part.keysPrev ∈ ps) :
    Frame ps rs s t.latchPrevKeys where
  parts p hn := by
    cases p with
    | keysPrev => exact absurd hp hn
    | _ => exact f.parts _ hn
  regs := f.regs
  mem := f.mem

end Frame

theorem unchangedExcept_setSlot (s : State) (k : Nat) : UnchangedExcept [.slot] s (s.setSlot k) :=
  (Frame.refl (rs := []).setSlot (by simp)).parts

/-- Settles O9: each case of `beforeSlot` and `afterSlot` writes the parts of its phases. -/
theorem slotsStandInTheirTick : Obligations.SlotsStandInTheirTick := by
  refine fun s => ⟨s.beforeSlot_first, s.beforeSlot_later, fun h => ?fault, fun h more => ?more,
    fun h last => ?last⟩
  case fault =>
    rw [s.afterSlot_halted h]
    exact ⟨rfl, unchangedExcept_setSlot s 0⟩
  case more =>
    rw [s.afterSlot_more h more]
    exact ⟨rfl, unchangedExcept_setSlot s (s.slot + 1)⟩
  case last =>
    rw [s.afterSlot_last h last]
    exact ⟨rfl, rfl, ((Frame.refl (rs := []).latchPrevKeys (by simp)).setSlot (by simp)).parts⟩

/-! ## What the slots of a tick leave alone -/

theorem Part.same.trans {p : Part} {s t u : State} (h : p.same s t) (h' : p.same t u) :
    p.same s u := by
  cases p with
  | regs | memory => exact fun a => (h' a).trans (h a)
  | keysPort | rndPort => exact ⟨h'.1.trans h.1, h'.2.trans h.2⟩
  | _ => exact Eq.trans h' h

/-- The parts that the phases around the instructions write, and the parameters: no instruction writes
them. -/
def tickParts : List Part := [.tone, .keysNow, .keysPrev, .cfg, .slot, .keysPort]

theorem tickParts_not_written (i : Instr) : ∀ p ∈ tickParts, p ∉ writtenParts i := by
  cases i <;> simp [tickParts, writtenParts]

section TickPart
variable {p : Part} (hp : p ∈ tickParts) {s t : State}
include hp

theorem exec_keeps_tickPart {i : Instr} (h : exec i s = .next t) : p.same s t :=
  (exec_frame h).parts p (tickParts_not_written i p hp)

/-- A fault raised before an instruction is found sets the latch, which is no such part either. -/
theorem instructionStep_keeps_tickPart (h : instructionStep s = .next t) : p.same s t := by
  rcases instructionStep_cases h with ⟨i, -, hi⟩ | ⟨k, op, rfl⟩
  · exact exec_keeps_tickPart hp hi
  · exact (Frame.refl (ps := writtenParts .ret) (rs := [])).raise.parts p (tickParts_not_written _ p hp)

theorem runSlots_keeps_tickPart {n : Nat} (h : runSlots n s = .next t) : p.same s t := by
  induction n generalizing s with
  | zero =>
    obtain rfl := Host.Outcome.next.inj h
    exact (Frame.refl (ps := []) (rs := [])).parts p List.not_mem_nil
  | succ n ih =>
    obtain ⟨u, hu⟩ := instructionStep_answers s
    have first := instructionStep_keeps_tickPart hp hu
    simp only [runSlots, hu] at h
    split at h
    case isTrue => exact Host.Outcome.next.inj h ▸ first
    case isFalse => exact first.trans (ih h)

end TickPart

/-! ## The timers and the gate (R263, R264) -/

/-- A timer that is not 0 goes down by one, and a zero one stays. -/
theorem countDown_toNat (v : Byte) : (countDown v).toNat = v.toNat - 1 := by
  unfold countDown
  split
  case isTrue h => rw [h]; rfl
  case isFalse h => bv_omega

/-- No instruction writes the gate, LD DT alone the delay timer, LD ST alone the sound timer. -/
theorem exec_keeps_timers {i : Instr} {s t : State} (h : exec i s = .next t) :
    t.tone = s.tone ∧ ((∀ x, i ≠ .ldDT x) → t.DT = s.DT) ∧ ((∀ x, i ≠ .ldST x) → t.ST = s.ST) := by
  have frame := (exec_frame h).parts
  refine ⟨exec_keeps_tickPart (p := .tone) (by decide) h, fun hi => frame .delay ?delay,
    fun hi => frame .sound ?sound⟩
  case delay =>
    cases i with
    | ldDT x => exact absurd rfl (hi x)
    | _ => simp [writtenParts]
  case sound =>
    cases i with
    | ldST x => exact absurd rfl (hi x)
    | _ => simp [writtenParts]

/-- Settles O39: the timer phase stands before the first slot alone, and what an instruction writes is
its frame. -/
theorem timersCountOncePerTick : Obligations.TimersCountOncePerTick := by
  refine ⟨fun s h => ?first, fun s h => ?later,
    fun s => ⟨s.afterSlot_DT, s.afterSlot_ST, s.afterSlot_tone⟩, fun _ _ _ h => exec_keeps_timers h⟩
  case first =>
    rw [s.beforeSlot_first h]
    exact ⟨countDown_toNat s.DT, countDown_toNat s.ST, bne_iff_ne⟩
  case later =>
    rw [s.beforeSlot_later h]
    exact ⟨rfl, rfl, rfl⟩

/-! ## The end of a tick (R262, R266, R268) -/

/-- What follows the slots of a tick: phase 3, unless a fault ended them. -/
def State.endTick (s : State) : State := if s.halted then s else s.latchPrevKeys

theorem State.endTick_of_halted {s : State} (h : s.halted = true) : s.endTick = s := if_pos h

theorem State.endTick_of_not_halted {s : State} (h : s.halted = false) :
    s.endTick = s.latchPrevKeys := by
  rw [State.endTick, h]; rfl

/-- A tick of a machine that is not halted is its opening phases, its slots, and its end. -/
theorem tick_eq_endTick {s t : State} {keys : Keys} (hs : s.halted = false)
    (h : runSlots s.cfg.ipt (s.latchKeys keys).timerPhase = .next t) :
    tick keys s = .next t.endTick := by
  simp [tick, hs, h, State.endTick]

theorem tick_cases {s t : State} {keys : Keys} (hs : s.halted = false) (h : tick keys s = .next t) :
    ∃ u, runSlots s.cfg.ipt (s.latchKeys keys).timerPhase = .next u ∧ t = u.endTick := by
  obtain ⟨u, hu⟩ := runSlots_answers s.cfg.ipt (s.latchKeys keys).timerPhase
  exact ⟨u, hu, (Host.Outcome.next.inj ((tick_eq_endTick hs hu).symm.trans h)).symm⟩

/-- Settles O40: the timer phase sets the gate, and neither the slots nor the end of the tick write
it. -/
theorem toneFollowsTheSoundTimer : Obligations.ToneFollowsTheSoundTimer := by
  intro keys s t hs h
  obtain ⟨u, hu, rfl⟩ := tick_cases hs h
  have hslots : u.tone = (s.ST != 0) := runSlots_keeps_tickPart (p := .tone) (by decide) hu
  have hend : u.endTick.tone = u.tone := by unfold State.endTick; split <;> rfl
  rw [hend, hslots, bne_iff_ne]

/-- Settles O41: the slots leave both latches alone, and the end of the tick writes `keys_prev` unless
it faulted. -/
theorem keysAreLatchedOncePerTick : Obligations.KeysAreLatchedOncePerTick := by
  refine ⟨fun keys s t hs h => ?tick, fun i s t h => ?instruction⟩
  case tick =>
    obtain ⟨u, hu, rfl⟩ := tick_cases hs h
    have kept (p : Part) (hp : p ∈ tickParts) := runSlots_keeps_tickPart hp hu
    have hnow : u.keysNow = keys := kept .keysNow (by decide)
    have hprev : u.keysPrev = s.keysPrev := kept .keysPrev (by decide)
    cases hh : u.halted with
    | true =>
      rw [State.endTick_of_halted hh]
      exact ⟨hnow, fun h => absurd (h.symm.trans hh) (by decide), fun _ => hprev⟩
    | false =>
      rw [State.endTick_of_not_halted hh]
      exact ⟨hnow, fun _ => hnow, fun h => absurd (h.symm.trans hh) (by decide)⟩
  case instruction =>
    exact ⟨exec_keeps_tickPart (p := .keysNow) (by decide) h,
      exec_keeps_tickPart (p := .keysPrev) (by decide) h⟩

/-! ## The place in the tick does not matter to an instruction -/

theorem State.setSlot_memWrite {s u v : State} {k a : Nat} {bs : List Byte}
    (hu : s.memWrite a bs = some u) (hv : (s.setSlot k).memWrite a bs = some v) : v = u.setSlot k := by
  obtain ⟨-, rfl⟩ := State.memWrite_eq_some_iff.1 hu
  obtain ⟨-, rfl⟩ := State.memWrite_eq_some_iff.1 hv
  rfl

theorem State.setSlot_loadRegs (s : State) (k n : Nat) :
    (s.setSlot k).loadRegs n = (s.loadRegs n).setSlot k := by
  induction n with
  | zero => rfl
  | succ n ih => rw [State.loadRegs, ih]; rfl

theorem State.setSlot_advanceSkippingIf (s : State) (k : Nat) (c : Bool) :
    (s.setSlot k).advanceSkippingIf c = (s.advanceSkippingIf c).setSlot k := by
  cases c <;> rfl

/-- With its range in memory DRW draws the sprite, sets `VF` to the collision, and advances. -/
theorem exec_drw_of_le {x y n : BitVec 4} {s : State}
    (h : n.toNat = 0 ∨ s.I.toNat + n.toNat - 1 ≤ 0xFFF) :
    exec (.drw x y n) s = .next (State.setVF { s with disp := (s.drawing x y n).1 }
      (flagByte (s.drawing x y n).2)).advance := by
  rw [exec, execDrw, State.memRead_sprite h]
  rfl

theorem faultOf_setSlot (i : Instr) (s : State) (k : Nat) : faultOf i (s.setSlot k) = faultOf i s := by
  cases i <;> rfl

/-- An instruction does the same at every place of its tick, and keeps the place. -/
theorem exec_setSlot (i : Instr) (s : State) (k : Nat) :
    ∃ t, exec i s = .next t ∧ exec i (s.setSlot k) = .next (t.setSlot k) := by
  have faults {f : Fault} (hf : faultOf i s = some f) :
      ∃ t, exec i s = .next t ∧ exec i (s.setSlot k) = .next (t.setSlot k) :=
    ⟨_, (faultsArePreciseAndOnlyWhereNamed i s).1 f hf,
      (faultsArePreciseAndOnlyWhereNamed i (s.setSlot k)).1 f (by rw [faultOf_setSlot, hf])⟩
  cases i with
  | ret =>
    cases e : s.stack with
    | nil => exact faults (if_pos e)
    | cons top rest => exact ⟨_, exec_ret_of_cons e, exec_ret_of_cons (s := s.setSlot k) e⟩
  | ldVxK x =>
    cases e : smallestKey (released s.keysPrev s.keysNow) with
    | none => exact ⟨_, exec_ldVxK_of_none e, exec_ldVxK_of_none (s := s.setSlot k) e⟩
    | some key => exact ⟨_, exec_ldVxK_of_some e, exec_ldVxK_of_some (s := s.setSlot k) e⟩
  | seByte | sneByte | seReg | sneReg | skp | sknp =>
    exact ⟨_, rfl, congrArg Host.Outcome.next (s.setSlot_advanceSkippingIf k _)⟩
  | drw x y n =>
    by_cases h : n.toNat = 0 ∨ s.I.toNat + n.toNat - 1 ≤ 0xFFF
    · exact ⟨_, exec_drw_of_le h, exec_drw_of_le (s := s.setSlot k) h⟩
    · exact faults (if_pos (by omega))
  | ldB x =>
    by_cases h : s.I.toNat + 2 ≤ 0xFFF
    · obtain ⟨u, hu, he⟩ := exec_ldB_of_le (x := x) h
      obtain ⟨v, hv, he'⟩ := exec_ldB_of_le (x := x) (s := s.setSlot k) h
      obtain rfl := State.setSlot_memWrite hu hv
      exact ⟨_, he, he'⟩
    · exact faults (if_pos (by omega))
  | stRegs x =>
    by_cases h : s.I.toNat + x.toNat ≤ 0xFFF
    · obtain ⟨u, hu, he⟩ := exec_stRegs_of_le h
      obtain ⟨v, hv, he'⟩ := exec_stRegs_of_le (s := s.setSlot k) h
      obtain rfl := State.setSlot_memWrite hu hv
      exact ⟨_, he, he'⟩
    · exact faults (if_pos (by omega))
  | ldRegs x =>
    by_cases h : s.I.toNat + x.toNat ≤ 0xFFF
    · refine ⟨_, exec_ldRegs_of_le h, ?_⟩
      rw [exec_ldRegs_of_le (s := s.setSlot k) h, State.setSlot_loadRegs]
      rfl
    · exact faults (if_pos (by omega))
  | _ => exact ⟨_, rfl, rfl⟩

theorem instructionStep_setSlot (s : State) (k : Nat) :
    ∃ t, instructionStep s = .next t ∧ instructionStep (s.setSlot k) = .next (t.setSlot k) := by
  have hfetch := s.setSlot_fetchWord k
  cases hf : s.fetchWord with
  | none =>
    exact ⟨_, instructionStep_of_fetchWord_none hf,
      instructionStep_of_fetchWord_none (hfetch.trans hf)⟩
  | some op =>
    cases hd : decodeWord op with
    | ok i =>
      rw [instructionStep_of_decodeWord_ok hf hd, instructionStep_of_decodeWord_ok (hfetch.trans hf) hd]
      exact exec_setSlot i s k
    | error e =>
      exact ⟨_, instructionStep_of_decodeWord_error hf hd,
        instructionStep_of_decodeWord_error (hfetch.trans hf) hd⟩

/-! ## A tick slot by slot (R262, R265, R268) -/

theorem runSlots_succ {s t : State} (h : instructionStep s = .next t) (n : Nat) :
    runSlots (n + 1) s = if t.halted then .next t else runSlots n t := by
  rw [runSlots, h]

/-- A fault or the last slot ends the tick. -/
theorem State.afterSlot_eq_endTick {s : State} (h : s.halted = true ∨ s.cfg.ipt ≤ s.slot + 1) :
    s.afterSlot = (s.setSlot 0).endTick := by
  cases hh : s.halted with
  | true => rw [s.afterSlot_halted hh, State.endTick_of_halted (s := s.setSlot 0) hh]; rfl
  | false =>
    rw [s.afterSlot_last hh (h.resolve_left (by simp [hh])),
      State.endTick_of_not_halted (s := s.setSlot 0) hh]
    rfl

/-- A step makes the instruction step that the tick makes at place 0, and keeps the place for
`afterSlot`. -/
theorem step_at_place {s : State} (hs : s.halted = false) :
    ∃ u : State, step s = .next u.afterSlot ∧
      instructionStep (s.beforeSlot.setSlot 0) = .next (u.setSlot 0) ∧ u.slot = s.slot ∧ u.cfg = s.cfg := by
  obtain ⟨u, hu, hu0⟩ := instructionStep_setSlot s.beforeSlot 0
  have kept (p : Part) (hp : p ∈ tickParts) := instructionStep_keeps_tickPart hp hu
  exact ⟨u, step_of_instructionStep hs hu, hu0, kept .slot (by decide), kept .cfg (by decide)⟩

/-- After a slot with `n` more to come, `n` steps do what the rest of the tick does: nothing if the slot
faulted, else the `n` slots, which `runSlots` makes at place 0 while the steps count, and the end. -/
theorem runSteps_afterSlot {n : Nat} {u t : State} (hn : u.slot + (n + 1) = u.cfg.ipt)
    (h : (if u.halted then .next (u.setSlot 0) else runSlots n (u.setSlot 0)) = .next t) :
    runSteps n u.afterSlot = .next t.endTick := by
  induction n generalizing u with
  | zero =>
    have ht : u.setSlot 0 = t := by simpa [runSlots] using h
    rw [runSteps, State.afterSlot_eq_endTick (.inr hn.ge), ht]
  | succ n ih =>
    cases hh : u.halted with
    | true =>
      have ht : u.setSlot 0 = t := Host.Outcome.next.inj ((if_pos hh).symm.trans h)
      have hht : t.halted = true := by rw [← ht, State.setSlot_halted, hh]
      rw [State.afterSlot_eq_endTick (.inl hh), ht, State.endTick_of_halted hht]
      exact runSteps_of_halted hht _
    | false =>
      have hnext : u.afterSlot = u.setSlot (u.slot + 1) := u.afterSlot_more hh (by omega)
      have hbefore := (u.setSlot (u.slot + 1)).beforeSlot_later (Nat.succ_ne_zero u.slot)
      obtain ⟨v, hstep, hv0, hslot, hcfg⟩ := step_at_place (s := u.setSlot (u.slot + 1)) hh
      rw [hbefore] at hv0
      rw [hnext, runSteps_succ _ _ _ hstep]
      refine ih (u := v) ?_ ?_
      · rw [hslot, hcfg, State.setSlot_slot, State.setSlot_cfg]
        omega
      · rw [hh] at h
        exact (runSlots_succ hv0 n).symm.trans h

/-- Settles O42: before the first slot a step makes the phases of the tick, and `runSteps_afterSlot`
says it of the slots after the first. -/
theorem stepsMakeUpTheTick : Obligations.StepsMakeUpTheTick := by
  intro s hs hslot
  have hbegin : s.beforeSlot.setSlot 0 = (s.consumeKeys.latchKeys s.nextKeys).timerPhase := by
    rw [s.beforeSlot_first hslot, State.setSlot, ← hslot]
    rfl
  obtain ⟨u, hstep, hu0, huslot, hucfg⟩ := step_at_place hs
  obtain ⟨t, ht⟩ := runSlots_answers s.cfg.ipt (s.consumeKeys.latchKeys s.nextKeys).timerPhase
  have htick : tick s.nextKeys s.consumeKeys = .next t.endTick := tick_eq_endTick hs ht
  rw [htick, Config.ipt, runSteps_succ _ _ _ hstep]
  rw [hbegin] at hu0
  rw [Config.ipt, runSlots_succ hu0] at ht
  exact runSteps_afterSlot (by rw [huslot, hucfg, hslot, Nat.zero_add, Config.ipt]) ht

end Sys2Proof.Machine
end

section
/-! PROOFS. The family of spec/70_reset_and_hazards.md: the state after the reset event (O44), the ROM
that fits (O45) and the one that does not (O46), and the parameters, which only a reset sets (O50). -/

namespace Sys2Proof

/-! ## Memory before the ROM is copied, and the capacity for it (R9, R32) -/

theorem Config.initialByte_font (c : Config) (j : Fin 80) :
    c.initialByte (0x050 + j.val) = c.font[j] := by
  rw [Config.initialByte, dif_pos ⟨by omega, by omega⟩]
  simp

theorem Config.initialByte_outside (c : Config) {a : Nat} (h : ¬(0x050 ≤ a ∧ a < 0x0A0)) :
    c.initialByte a = 0x00 := dif_neg h

theorem Config.capacity_of_none {c : Config} (h : c.reservedTop = .none) : c.capacity = 3584 := by
  simp [Config.capacity, Config.reservedBytes, h]

theorem Config.capacity_of_bytes352 {c : Config} (h : c.reservedTop = .bytes352) :
    c.capacity = 3232 := by
  simp [Config.capacity, Config.reservedBytes, h]

/-- A ROM that fits ends within memory. -/
theorem Config.capacity_le (c : Config) : 0x200 + c.capacity ≤ 4096 := by
  rw [Config.capacity]
  omega

end Sys2Proof

namespace Sys2Proof.Machine

/-! ## The reset event with its ROM (R290 to R293) -/

@[simp] theorem State.resetWith_reg (c : Config) (r : Reg) : (State.resetWith c).reg r = 0 :=
  Vector.getElem_replicate _

section Load
variable {c : Config} {rom : List Byte}

theorem State.load_of_fits (h : rom.length ≤ c.capacity) :
    State.load c rom = { State.resetWith c with mem := Memory.writeList c [] 0x200 rom } :=
  if_pos (decide_eq_true h)

theorem State.load_of_too_long (h : c.capacity < rom.length) : State.load c rom =
    { State.resetWith c with fault := some ⟨.romTooLarge, 0x0200, 0x0000⟩ } :=
  if_neg (by rw [romFits, decide_eq_true_iff]; omega)

/-- Whatever the ROM, the reset event gives every part but memory and the latch its reset value. -/
theorem State.load_keeps (c : Config) (rom : List Byte) (p : Part)
    (hp : p ∉ [Part.memory, .fault] := by decide) : p.same (State.resetWith c) (State.load c rom) := by
  have keeps : Frame [.memory, .fault] [] (State.resetWith c) (State.load c rom) := by
    rcases Nat.lt_or_ge c.capacity rom.length with h | h
    · rw [State.load_of_too_long h]
      exact Frame.refl.raise (by simp)
    · rw [State.load_of_fits h]
      exact Frame.refl.setMem (by simp)
  exact keeps.parts p hp

theorem State.load_fault (c : Config) (rom : List Byte) : (State.load c rom).fault =
    if rom.length ≤ c.capacity then none else some ⟨.romTooLarge, 0x0200, 0x0000⟩ := by
  split
  case isTrue h => rw [State.load_of_fits h]; rfl
  case isFalse h => rw [State.load_of_too_long (by omega)]

/-- A ROM that fits stands over the reset contents of memory. -/
theorem State.load_readByte_of_fits (h : rom.length ≤ c.capacity) (a : Nat) :
    (State.load c rom).readByte a = storedOver c.initialByte 0x200 rom a := by
  have hend := c.capacity_le
  rw [State.load_of_fits h]
  exact (State.resetWith c).readByte_storedOver 0x200 rom (State.resetWith_inv c).1 (by omega) a

/-- Of a ROM that is too long, no byte reaches memory. -/
theorem State.load_readByte_of_too_long (h : c.capacity < rom.length) (a : Nat) :
    (State.load c rom).readByte a = c.initialByte a := by
  rw [State.load_of_too_long h]
  rfl

theorem State.load_readByte_below {a : Nat} (ha : a < 0x200) :
    (State.load c rom).readByte a = c.initialByte a := by
  rcases Nat.lt_or_ge c.capacity rom.length with h | h
  · exact State.load_readByte_of_too_long h a
  · rw [State.load_readByte_of_fits h, storedOver_outside _ _ _ _ (by omega)]

/-- The program region holds the ROM if it fits, and 0x00 everywhere else (R292, R293). -/
theorem State.load_readByte_program {a : Nat} (ha : 0x200 ≤ a) : (State.load c rom).readByte a =
    if rom.length ≤ c.capacity then rom.getD (a - 0x200) 0x00 else 0x00 := by
  have hzero : c.initialByte a = 0x00 := c.initialByte_outside (by omega)
  split
  case isTrue h =>
    rw [State.load_readByte_of_fits h]
    by_cases hj : a - 0x200 < rom.length
    · rw [List.getD_eq_getElem _ _ hj, storedOver, dif_pos ⟨ha, by omega⟩]
    · rw [List.getD_eq_default _ _ (by omega), storedOver_outside _ _ _ _ (by omega), hzero]
  case isFalse h => rw [State.load_readByte_of_too_long (by omega), hzero]

end Load

/-- Settles O44: the parts a reset does not write by the ROM, then memory below and in the program
region. -/
theorem resetLeavesTheResetState : Obligations.ResetLeavesTheResetState := by
  intro c rom s
  have kept (p : Part) (hp : p ∉ [Part.memory, .fault] := by decide) :
      p.same (State.resetWith c) s := State.load_keeps c rom p hp
  obtain ⟨hkeysIn, htickNo⟩ := kept .keysPort
  obtain ⟨hrndIn, hrndNo⟩ := kept .rndPort
  have hreg (r : Reg) : s.reg r = 0 := (kept .regs (by decide) r).trans (State.resetWith_reg c r)
  have hdisp (r : Fin 32) : s.disp[r] = 0 := by
    have e : s.disp = Vector.replicate 32 0 := kept .display
    simp [e]
  have hfont (j : Fin 80) : s.readByte (0x050 + j.val) = c.font[j] :=
    (State.load_readByte_below (by omega)).trans (c.initialByte_font j)
  have hbelow (a : Nat) (ha : a < 0x200) (hout : ¬(0x050 ≤ a ∧ a < 0x0A0)) : s.readByte a = 0x00 :=
    (State.load_readByte_below ha).trans (c.initialByte_outside hout)
  exact ⟨hreg, kept .index, kept .pc, kept .stack, kept .delay, kept .sound, kept .tone, hdisp,
    kept .keysNow, kept .keysPrev, kept .cfg, kept .slot, hkeysIn, hrndIn, htickNo, hrndNo, hfont,
    hbelow, State.load_fault c rom, fun _ ha _ => State.load_readByte_program ha⟩

/-- Settles O45: the zero word after an empty ROM is the one of R124's example (O7). -/
theorem romIsCopiedTo0x200 : Obligations.RomIsCopiedTo0x200 := by
  refine ⟨fun c rom h => ?fits, fun c => ⟨fun hn => ?none, fun hb => ?bytes352⟩⟩
  case fits =>
    have hafter (a : Nat) (ha : 0x200 + rom.length ≤ a) : (State.load c rom).readByte a = 0x00 := by
      rw [State.load_readByte_program (by omega), if_pos h, List.getD_eq_default _ _ (by omega)]
    refine ⟨(State.load_fault c rom).trans (if_pos h), fun j hj => ?copied, hafter, ?empty⟩
    case copied => rw [State.load_readByte_of_fits h, storedOver_stored _ _ _ _ hj]
    case empty =>
      rintro rfl
      obtain ⟨t, ht, -, hfault, -⟩ := unmatchedWordRaisesUnknownOpcode.2 _
        (State.load_keeps c [] .pc) (hafter 0x200 (by simp)) (hafter 0x201 (by simp))
      exact ⟨t, ht, hfault⟩
  case none =>
    rw [Config.capacity_of_none hn]
    exact ⟨rfl, rfl⟩
  case bytes352 =>
    rw [Config.capacity_of_bytes352 hb]
    exact ⟨rfl, rfl⟩

/-- Settles O46: the latch is set, so the machine is halted. -/
theorem oversizedRomIsRejected : Obligations.OversizedRomIsRejected := by
  intro c rom h
  have hfault := (State.load_fault c rom).trans (if_neg (Nat.not_le.2 h))
  exact ⟨hfault, fun a ha => (State.load_readByte_program ha).trans (if_neg (Nat.not_le.2 h)),
    step_of_halted (State.halted_of_fault hfault)⟩

/-! ## The parameters over a step and a tick (R290) -/

theorem State.endTick_cfg (s : State) : s.endTick.cfg = s.cfg := by
  unfold State.endTick
  split <;> rfl

theorem step_keeps_cfg {s t : State} (h : step s = .next t) : t.cfg = s.cfg := by
  rcases step_cases h with ⟨-, rfl⟩ | ⟨u, hu, rfl⟩
  · rfl
  · have hinstr : u.cfg = s.beforeSlot.cfg := instructionStep_keeps_tickPart (p := .cfg) (by decide) hu
    rw [State.afterSlot_cfg, hinstr, State.beforeSlot_cfg]

theorem tick_keeps_cfg {keys : Keys} {s t : State} (h : tick keys s = .next t) : t.cfg = s.cfg := by
  cases hs : s.halted with
  | true =>
    obtain rfl := Host.Outcome.next.inj ((tick_of_halted keys hs).symm.trans h)
    rfl
  | false =>
    obtain ⟨u, hu, rfl⟩ := tick_cases hs h
    have hslots : Part.cfg.same (s.latchKeys keys).timerPhase u :=
      runSlots_keeps_tickPart (by decide) hu
    exact u.endTick_cfg.trans hslots

/-- Settles O50: the phases around the instructions do not write the parameters, and no instruction
does. -/
theorem parametersAreConstant : Obligations.ParametersAreConstant := fun _ _ _ =>
  ⟨step_keeps_cfg, tick_keeps_cfg⟩

end Sys2Proof.Machine
end
